-- ==== Sys2Proof/Word.lean ====
section
/-! DEFINITION. The word types of the State Vector's fields, tokens and the items of the raw stream. -/

namespace Sys2Proof

/-- A 42-bit general register (10_state.md R20, `W_REG` of R9). -/
abbrev RegWord := BitVec 42

/-- A 12-bit memory slot (10_state.md R20, `W_MEM` of R9). -/
abbrev MemWord := BitVec 12

/-- The 6-bit Opcode field (10_state.md R28, `W_OPC` of R9). -/
abbrev OpcodeWord := BitVec 6

/-- The 4-bit reserved field (10_state.md R29, `W_RSV` of R9). -/
abbrev ReservedWord := BitVec 4

/-- The 4-bit Flags field (10_state.md R30, `W_FLG` of R9). No bit of it is given a meaning. -/
abbrev FlagsWord := BitVec 4

/-- A token: a character string, compared by exact equality (00_scope.md R13).
That a token is not empty is a check of WellFormed. -/
abbrev Token := List Char

/-- An item of the raw stream: a token or a line-boundary marker (30_encoding.md R70). -/
inductive Item where
  | tok (t : Token)
  | lb
  deriving DecidableEq, Repr

end Sys2Proof
end

