-- ==== Sys2Proof/Syntax.lean ====
section
/-! DEFINITION. The instructions as syntax: locations, operands, mnemonics and one constructor of Instr for every row of
spec/opcode_table.json. -/

namespace Sys2Proof

/-- A location: one of the slots 0 to 7 that an operand token can name (10_state.md R26). -/
inductive Loc where
  | regC
  | regB
  | regA
  | mem5
  | mem4
  | mem3
  | mem2
  | mem1
  deriving DecidableEq, Repr

/-- The two accepted spellings of a location name (30_encoding.md R76). -/
inductive Spelling where
  | source
  | upper
  deriving DecidableEq, Repr

/-- An operand token by its class (30_encoding.md R75). The spelling, the sign and every digit are kept, so that the
token can be written back exactly: a fault report quotes it (60_exceptions.md R286). -/
inductive Operand where
  /-- A location name (30_encoding.md R76). -/
  | loc (l : Loc) (sp : Spelling)
  /-- A literal, its digits most significant first (30_encoding.md R77). -/
  | lit (neg : Bool) (digits : List (Fin 10))
  /-- Any other token (30_encoding.md R78). -/
  | other (t : Token)
  deriving DecidableEq, Repr

/-- The 46 mnemonics (30_encoding.md R80, R81). -/
inductive Mnemonic where
  | zero
  | imm
  | add
  | sub
  | mult
  | mulths
  | multhsu
  | div
  | divs
  | divuns
  | storebyte
  | loadbyte
  | loadbyteun
  | storehalf
  | storeword
  | loadhalf
  | loadhalfun
  | loadword
  | setlessthan
  | setlessthanun
  | shiftleftlog
  | shiftrightlog
  | shiftrigharth
  | shiftleftarth
  | ain
  | bin
  | cin
  | aout
  | bout
  | cout
  | loada
  | loadb
  | loadc
  | mem1in
  | mem2in
  | mem3in
  | mem4in
  | mem5in
  | mem1out
  | mem2out
  | mem3out
  | mem4out
  | mem5out
  | jump
  | stall
  | reset
  deriving DecidableEq, Repr

/-- The five instruction formats (30_encoding.md R73). -/
inductive Format where
  | f0
  | f1s
  | f1d
  | f2
  | f3
  deriving DecidableEq, Repr

/-- One instruction: a mnemonic with the operand tokens its format gives it (30_encoding.md R72, R73, R81). -/
inductive Instr where
  | zero
  | imm
  | add (dest a b : Operand)
  | sub (dest a b : Operand)
  | mult (dest a b : Operand)
  | mulths (dest a b : Operand)
  | multhsu (dest a b : Operand)
  | div (dest a b : Operand)
  | divs (dest a b : Operand)
  | divuns (dest a b : Operand)
  | storebyte (dest src : Operand)
  | loadbyte (dest src : Operand)
  | loadbyteun (dest src : Operand)
  | storehalf (dest a b : Operand)
  | storeword (dest a b : Operand)
  | loadhalf (dest a b : Operand)
  | loadhalfun (dest a b : Operand)
  | loadword (dest a b : Operand)
  | setlessthan (dest a b : Operand)
  | setlessthanun (dest a b : Operand)
  | shiftleftlog (dest src : Operand)
  | shiftrightlog (dest src : Operand)
  | shiftrigharth (dest src : Operand)
  | shiftleftarth (dest src : Operand)
  | ain (src : Operand)
  | bin (src : Operand)
  | cin (src : Operand)
  | aout (dest : Operand)
  | bout (dest : Operand)
  | cout (dest : Operand)
  | loada (src : Operand)
  | loadb (src : Operand)
  | loadc (src : Operand)
  | mem1in (src : Operand)
  | mem2in (src : Operand)
  | mem3in (src : Operand)
  | mem4in (src : Operand)
  | mem5in (src : Operand)
  | mem1out (dest : Operand)
  | mem2out (dest : Operand)
  | mem3out (dest : Operand)
  | mem4out (dest : Operand)
  | mem5out (dest : Operand)
  | jump
  | stall
  | reset
  deriving DecidableEq, Repr

/-- The mnemonic of an instruction. -/
def Instr.mnemonic : Instr → Mnemonic
  | .zero => .zero
  | .imm => .imm
  | .add _ _ _ => .add
  | .sub _ _ _ => .sub
  | .mult _ _ _ => .mult
  | .mulths _ _ _ => .mulths
  | .multhsu _ _ _ => .multhsu
  | .div _ _ _ => .div
  | .divs _ _ _ => .divs
  | .divuns _ _ _ => .divuns
  | .storebyte _ _ => .storebyte
  | .loadbyte _ _ => .loadbyte
  | .loadbyteun _ _ => .loadbyteun
  | .storehalf _ _ _ => .storehalf
  | .storeword _ _ _ => .storeword
  | .loadhalf _ _ _ => .loadhalf
  | .loadhalfun _ _ _ => .loadhalfun
  | .loadword _ _ _ => .loadword
  | .setlessthan _ _ _ => .setlessthan
  | .setlessthanun _ _ _ => .setlessthanun
  | .shiftleftlog _ _ => .shiftleftlog
  | .shiftrightlog _ _ => .shiftrightlog
  | .shiftrigharth _ _ => .shiftrigharth
  | .shiftleftarth _ _ => .shiftleftarth
  | .ain _ => .ain
  | .bin _ => .bin
  | .cin _ => .cin
  | .aout _ => .aout
  | .bout _ => .bout
  | .cout _ => .cout
  | .loada _ => .loada
  | .loadb _ => .loadb
  | .loadc _ => .loadc
  | .mem1in _ => .mem1in
  | .mem2in _ => .mem2in
  | .mem3in _ => .mem3in
  | .mem4in _ => .mem4in
  | .mem5in _ => .mem5in
  | .mem1out _ => .mem1out
  | .mem2out _ => .mem2out
  | .mem3out _ => .mem3out
  | .mem4out _ => .mem4out
  | .mem5out _ => .mem5out
  | .jump => .jump
  | .stall => .stall
  | .reset => .reset

/-- The operands of an instruction, in token order. -/
def Instr.operands : Instr → List Operand
  | .zero => []
  | .imm => []
  | .add dest a b => [dest, a, b]
  | .sub dest a b => [dest, a, b]
  | .mult dest a b => [dest, a, b]
  | .mulths dest a b => [dest, a, b]
  | .multhsu dest a b => [dest, a, b]
  | .div dest a b => [dest, a, b]
  | .divs dest a b => [dest, a, b]
  | .divuns dest a b => [dest, a, b]
  | .storebyte dest src => [dest, src]
  | .loadbyte dest src => [dest, src]
  | .loadbyteun dest src => [dest, src]
  | .storehalf dest a b => [dest, a, b]
  | .storeword dest a b => [dest, a, b]
  | .loadhalf dest a b => [dest, a, b]
  | .loadhalfun dest a b => [dest, a, b]
  | .loadword dest a b => [dest, a, b]
  | .setlessthan dest a b => [dest, a, b]
  | .setlessthanun dest a b => [dest, a, b]
  | .shiftleftlog dest src => [dest, src]
  | .shiftrightlog dest src => [dest, src]
  | .shiftrigharth dest src => [dest, src]
  | .shiftleftarth dest src => [dest, src]
  | .ain src => [src]
  | .bin src => [src]
  | .cin src => [src]
  | .aout dest => [dest]
  | .bout dest => [dest]
  | .cout dest => [dest]
  | .loada src => [src]
  | .loadb src => [src]
  | .loadc src => [src]
  | .mem1in src => [src]
  | .mem2in src => [src]
  | .mem3in src => [src]
  | .mem4in src => [src]
  | .mem5in src => [src]
  | .mem1out dest => [dest]
  | .mem2out dest => [dest]
  | .mem3out dest => [dest]
  | .mem4out dest => [dest]
  | .mem5out dest => [dest]
  | .jump => []
  | .stall => []
  | .reset => []

end Sys2Proof
end

