-- ==== Sys2Proof/Decode.lean ====
section
/-! DEFINITION. The token-level decoder and, after it, the encoder: the spelling of mnemonics, locations and literals,
the format of every mnemonic, one instruction read from a token list, and the text layout behind decodeTableWord. -/

namespace Sys2Proof

/-! ### Location names (30_encoding.md R76) -/

/-- The name of a location in each of its two spellings (30_encoding.md R76). -/
def locName : Loc → Spelling → Token
  | .regC, .source => "RegC".toList
  | .regB, .source => "RegB".toList
  | .regA, .source => "RegA".toList
  | .mem5, .source => "Mem5".toList
  | .mem4, .source => "Mem4".toList
  | .mem3, .source => "Mem3".toList
  | .mem2, .source => "Mem2".toList
  | .mem1, .source => "Mem1".toList
  | .regC, .upper => "REGC".toList
  | .regB, .upper => "REGB".toList
  | .regA, .upper => "REGA".toList
  | .mem5, .upper => "MEM5".toList
  | .mem4, .upper => "MEM4".toList
  | .mem3, .upper => "MEM3".toList
  | .mem2, .upper => "MEM2".toList
  | .mem1, .upper => "MEM1".toList

/-- The eight locations in slot order (10_state.md R26). -/
def allLocs : List Loc := [.regC, .regB, .regA, .mem5, .mem4, .mem3, .mem2, .mem1]

/-- The 16 location names (30_encoding.md R76). -/
def allLocNames : List (Loc × Spelling) :=
  allLocs.map (fun l => (l, .source)) ++ allLocs.map (fun l => (l, .upper))

/-- The location a token names, if it is one of the 16 spellings. -/
def locationOf? (t : Token) : Option (Loc × Spelling) :=
  allLocNames.find? fun p => locName p.1 p.2 == t

/-! ### Literals (30_encoding.md R77) -/

/-- The character of a decimal digit. -/
def digitChar (d : Fin 10) : Char := Char.ofNat (48 + d.val)

/-- The decimal digit a character is, if it is one. -/
def digitOf? (c : Char) : Option (Fin 10) :=
  if h : 48 ≤ c.toNat ∧ c.toNat < 58 then some ⟨c.toNat - 48, by omega⟩ else none

/-- The digits a character string is, if every character is a digit. -/
def digitsOf? : List Char → Option (List (Fin 10))
  | [] => some []
  | c :: cs =>
    match digitOf? c, digitsOf? cs with
    | some d, some ds => some (d :: ds)
    | _, _ => none

/-- The sign and digits of a token that matches `-?[0-9]+` (30_encoding.md R77). -/
def literalOf? : Token → Option (Bool × List (Fin 10))
  | [] => none
  | c :: cs =>
    if c = '-' then
      match digitsOf? cs with
      | some (d :: ds) => some (true, d :: ds)
      | _ => none
    else
      match digitsOf? (c :: cs) with
      | some ds => some (false, ds)
      | none => none

/-- The natural number a digit string spells in base 10. -/
def digitsValue (ds : List (Fin 10)) : Nat := ds.foldl (fun n d => 10 * n + d.val) 0

/-- The value of a literal: unbounded, `-0` is 0, leading zeros count nothing (30_encoding.md R77, R90). -/
def literalValue (neg : Bool) (ds : List (Fin 10)) : Int :=
  if neg then -(digitsValue ds : Int) else (digitsValue ds : Int)

/-! ### Operand tokens (30_encoding.md R75) -/

/-- The class of an operand token (30_encoding.md R75 to R78). -/
def operandOf (t : Token) : Operand :=
  match locationOf? t with
  | some (l, sp) => .loc l sp
  | none =>
    match literalOf? t with
    | some (neg, ds) => .lit neg ds
    | none => .other t

/-- The token an operand is written as. -/
def Operand.text : Operand → Token
  | .loc l sp => locName l sp
  | .lit neg ds => (if neg then ['-'] else []) ++ ds.map digitChar
  | .other t => t

/-! ### Mnemonics (30_encoding.md R80, R81) -/

/-- The token of a mnemonic, spelled as 30_encoding.md R81 spells it. -/
def Mnemonic.token : Mnemonic → Token
  | .zero => "ZERO".toList
  | .imm => "IMM".toList
  | .add => "ADD".toList
  | .sub => "SUB".toList
  | .mult => "MULT".toList
  | .mulths => "MULTHS".toList
  | .multhsu => "MULTHSU".toList
  | .div => "DIV".toList
  | .divs => "DIVS".toList
  | .divuns => "DIVUNS".toList
  | .storebyte => "STOREBYTE".toList
  | .loadbyte => "LOADBYTE".toList
  | .loadbyteun => "LOADBYTEUN".toList
  | .storehalf => "STOREHALF".toList
  | .storeword => "STOREWORD".toList
  | .loadhalf => "LOADHALF".toList
  | .loadhalfun => "LOADHALFUN".toList
  | .loadword => "LOADWORD".toList
  | .setlessthan => "SETLESSTHAN".toList
  | .setlessthanun => "SETLESSTHANUN".toList
  | .shiftleftlog => "SHIFTLEFTLOG".toList
  | .shiftrightlog => "SHIFTRIGHTLOG".toList
  | .shiftrigharth => "SHIFTRIGHARTH".toList
  | .shiftleftarth => "SHIFTLEFTARTH".toList
  | .ain => "AIN".toList
  | .bin => "BIN".toList
  | .cin => "CIN".toList
  | .aout => "AOUT".toList
  | .bout => "BOUT".toList
  | .cout => "COUT".toList
  | .loada => "LOADA".toList
  | .loadb => "LOADB".toList
  | .loadc => "LOADC".toList
  | .mem1in => "MEM1IN".toList
  | .mem2in => "MEM2IN".toList
  | .mem3in => "MEM3IN".toList
  | .mem4in => "MEM4IN".toList
  | .mem5in => "MEM5IN".toList
  | .mem1out => "MEM1OUT".toList
  | .mem2out => "MEM2OUT".toList
  | .mem3out => "MEM3OUT".toList
  | .mem4out => "MEM4OUT".toList
  | .mem5out => "MEM5OUT".toList
  | .jump => "JUMP".toList
  | .stall => "STALL".toList
  | .reset => "RESET".toList

/-- The 46 mnemonics, in the order of 30_encoding.md R81. -/
def allMnemonics : List Mnemonic :=
  [.zero, .imm, .add, .sub, .mult, .mulths, .multhsu, .div,
   .divs, .divuns, .storebyte, .loadbyte, .loadbyteun, .storehalf, .storeword, .loadhalf,
   .loadhalfun, .loadword, .setlessthan, .setlessthanun, .shiftleftlog, .shiftrightlog, .shiftrigharth, .shiftleftarth,
   .ain, .bin, .cin, .aout, .bout, .cout, .loada, .loadb,
   .loadc, .mem1in, .mem2in, .mem3in, .mem4in, .mem5in, .mem1out, .mem2out,
   .mem3out, .mem4out, .mem5out, .jump, .stall, .reset]

/-- The mnemonic a token is: exact, case-sensitive matching (30_encoding.md R80). -/
def mnemonicOf? (t : Token) : Option Mnemonic :=
  allMnemonics.find? fun m => m.token == t

/-- The format of each mnemonic (30_encoding.md R81). -/
def Mnemonic.format : Mnemonic → Format
  | .zero | .imm | .jump | .stall | .reset => .f0
  | .ain | .bin | .cin | .loada | .loadb | .loadc => .f1s
  | .mem1in | .mem2in | .mem3in | .mem4in | .mem5in => .f1s
  | .aout | .bout | .cout | .mem1out | .mem2out | .mem3out => .f1d
  | .mem4out | .mem5out => .f1d
  | .storebyte | .loadbyte | .loadbyteun | .shiftleftlog | .shiftrightlog | .shiftrigharth => .f2
  | .shiftleftarth => .f2
  | .add | .sub | .mult | .mulths | .multhsu | .div => .f3
  | .divs | .divuns | .storehalf | .storeword | .loadhalf | .loadhalfun => .f3
  | .loadword | .setlessthan | .setlessthanun => .f3

/-- The number of operand tokens of a format (30_encoding.md R73). -/
def Format.arity : Format → Nat
  | .f0 => 0
  | .f1s | .f1d => 1
  | .f2 => 2
  | .f3 => 3

/-- The arity of a mnemonic: how many operand tokens must be consumed (30_encoding.md R72, R74). -/
def Mnemonic.arity (m : Mnemonic) : Nat := m.format.arity

/-! ### The decoder -/

/-- An instruction still to be given its operands, by arity. -/
inductive Maker where
  | of0 (i : Instr)
  | of1 (f : Operand → Instr)
  | of2 (f : Operand → Operand → Instr)
  | of3 (f : Operand → Operand → Operand → Instr)

/-- How a mnemonic's instruction is built from its operands (30_encoding.md R73, R81). -/
def maker : Mnemonic → Maker
  | .zero => .of0 .zero
  | .imm => .of0 .imm
  | .add => .of3 .add
  | .sub => .of3 .sub
  | .mult => .of3 .mult
  | .mulths => .of3 .mulths
  | .multhsu => .of3 .multhsu
  | .div => .of3 .div
  | .divs => .of3 .divs
  | .divuns => .of3 .divuns
  | .storebyte => .of2 .storebyte
  | .loadbyte => .of2 .loadbyte
  | .loadbyteun => .of2 .loadbyteun
  | .storehalf => .of3 .storehalf
  | .storeword => .of3 .storeword
  | .loadhalf => .of3 .loadhalf
  | .loadhalfun => .of3 .loadhalfun
  | .loadword => .of3 .loadword
  | .setlessthan => .of3 .setlessthan
  | .setlessthanun => .of3 .setlessthanun
  | .shiftleftlog => .of2 .shiftleftlog
  | .shiftrightlog => .of2 .shiftrightlog
  | .shiftrigharth => .of2 .shiftrigharth
  | .shiftleftarth => .of2 .shiftleftarth
  | .ain => .of1 .ain
  | .bin => .of1 .bin
  | .cin => .of1 .cin
  | .aout => .of1 .aout
  | .bout => .of1 .bout
  | .cout => .of1 .cout
  | .loada => .of1 .loada
  | .loadb => .of1 .loadb
  | .loadc => .of1 .loadc
  | .mem1in => .of1 .mem1in
  | .mem2in => .of1 .mem2in
  | .mem3in => .of1 .mem3in
  | .mem4in => .of1 .mem4in
  | .mem5in => .of1 .mem5in
  | .mem1out => .of1 .mem1out
  | .mem2out => .of1 .mem2out
  | .mem3out => .of1 .mem3out
  | .mem4out => .of1 .mem4out
  | .mem5out => .of1 .mem5out
  | .jump => .of0 .jump
  | .stall => .of0 .stall
  | .reset => .of0 .reset

/-- What the decoder reads at a dispatch position. -/
inductive Decoded where
  /-- An instruction, with the tokens after it. -/
  | instr (i : Instr) (rest : List Token)
  /-- The token at the dispatch position is no mnemonic; it is skipped (30_encoding.md R82). -/
  | notMnemonic (t : Token) (rest : List Token)
  /-- The mnemonic's operands are cut off by the end of the stream: `following` tokens are left (40_engine.md R111). -/
  | truncated (m : Mnemonic) (following : Nat)
  /-- No token is left (40_engine.md R111). -/
  | endOfStream
  deriving DecidableEq, Repr

/-- Reads one instruction. Operands are positional: whatever tokens follow the mnemonic are its operands, mnemonics
among them (30_encoding.md R72, R74). -/
def decode : List Token → Decoded
  | [] => .endOfStream
  | t :: rest =>
    match mnemonicOf? t with
    | none => .notMnemonic t rest
    | some m =>
      match maker m, rest with
      | .of0 i, rest => .instr i rest
      | .of1 f, a :: rest => .instr (f (operandOf a)) rest
      | .of2 f, a :: b :: rest => .instr (f (operandOf a) (operandOf b)) rest
      | .of3 f, a :: b :: c :: rest => .instr (f (operandOf a) (operandOf b) (operandOf c)) rest
      | _, rest => .truncated m rest.length

/-! ### The encoder -/

/-- The tokens of an instruction (30_encoding.md R73, R91). -/
def encode (i : Instr) : List Token := i.mnemonic.token :: i.operands.map Operand.text

/-! ### Program text and the word of an opcode-table row (log 5)

The spec gives an instruction no bits. For decodeTableWord an instruction's word is its program text
(30_encoding.md R91), one byte a character, the first character in the least significant byte, ended by a zero byte. -/

/-- Separates tokens: a comma or whitespace (30_encoding.md R70, R91). Which characters are whitespace the spec does not say.
DESIGN CHOICE (log 16): space, tab, carriage return and line feed, and no other. -/
def isSeparator (c : Char) : Bool := c == ',' || c == ' ' || c == '\t' || c == '\r' || c == '\n'

/-- The item a finished run of characters is, if it is not empty; `acc` holds the run reversed. -/
def flushToken (acc : List Char) : List Item :=
  if acc = [] then [] else [.tok acc.reverse]

/-- Splits program text into the items of a raw stream: tokens between separators, a marker at each line break
(30_encoding.md R70, R91). Which characters break a line the spec does not say. DESIGN CHOICE (log 16): the line feed alone. -/
def splitText : List Char → List Char → List Item
  | [], acc => flushToken acc
  | c :: cs, acc =>
    if c = '\n' then flushToken acc ++ .lb :: splitText cs []
    else if isSeparator c then flushToken acc ++ splitText cs []
    else splitText cs (c :: acc)

/-- The raw stream of a program text: the external tokenizer's contract (30_encoding.md R70), spelling unchanged. -/
def itemsOfText (text : List Char) : List Item := splitText text []

/-- The tokens of a raw stream, markers dropped (47_hazard_annotator.md R260). -/
def itemTokens : List Item → List Token
  | [] => []
  | .tok t :: rest => t :: itemTokens rest
  | .lb :: rest => itemTokens rest

/-- The characters of a word of `nbits` bits, up to its first zero byte. -/
def wordText (nbits w : Nat) : List Char :=
  ((List.range ((nbits + 7) / 8)).map fun k => Char.ofNat (w / 2 ^ (8 * k) % 256)).takeWhile fun c => c != Char.ofNat 0

/-- The operand tokens that stand for operand words of zeros: slot 0 for a destination, the literal 0 for a source. -/
def zeroOperands : Format → List Token
  | .f0 => []
  | .f1s => ["0".toList]
  | .f1d => ["RegC".toList]
  | .f2 => ["RegC".toList, "0".toList]
  | .f3 => ["RegC".toList, "0".toList, "0".toList]

/-- Adds the operand tokens the word is too short to spell, as words of zeros. -/
def padOperands : List Token → List Token
  | [] => []
  | t :: rest =>
    match mnemonicOf? t with
    | none => t :: rest
    | some m => t :: (rest ++ (zeroOperands m.format).drop rest.length)

/-- The tokens of an instruction whose bits are `w`. -/
def wordTokens (nbits w : Nat) : List Token := padOperands (itemTokens (itemsOfText (wordText nbits w)))

/-- The instruction the decoder reads from an instruction whose bits are `w` (log 5). -/
def decodeTableWord (nbits w : Nat) : Option Instr :=
  match decode (wordTokens nbits w) with
  | .instr i _ => some i
  | _ => none

end Sys2Proof
end

