-- ==== Sys2Proof/Config.lean ====
section
/-! DEFINITION. The configuration of a run: the parameters of 00_scope.md R9 that the source leaves to the host or
leaves open. It is fixed for the whole run (10_state.md R34). It is plain data, carried in State and written by no step,
so that a statement about every state is a statement about every configuration. -/

namespace Sys2Proof

/-- `OVERFLOW_POLICY` (00_scope.md R9, 40_engine.md R108). -/
inductive OverflowPolicy where
  | truncate
  | fault
  deriving DecidableEq, Repr

/-- `RENDER_POLICY` (00_scope.md R9, 40_engine.md R122). -/
inductive RenderPolicy where
  | low32
  | fault
  deriving DecidableEq, Repr

/-- The codes `OPC_<mnemonic>` of the 23 mnemonics for which the source gives none (30_encoding.md R86).
They are free: only `OpenCodes.Distinct` is known of them (R87), of the codes of a run: `Config.WellFormed` asks for it. -/
structure OpenCodes where
  storehalf : OpcodeWord
  storeword : OpcodeWord
  loadhalf : OpcodeWord
  loadhalfun : OpcodeWord
  loadword : OpcodeWord
  ain : OpcodeWord
  bin : OpcodeWord
  cin : OpcodeWord
  aout : OpcodeWord
  bout : OpcodeWord
  cout : OpcodeWord
  loadb : OpcodeWord
  loadc : OpcodeWord
  mem1in : OpcodeWord
  mem2in : OpcodeWord
  mem3in : OpcodeWord
  mem4in : OpcodeWord
  mem5in : OpcodeWord
  mem1out : OpcodeWord
  mem2out : OpcodeWord
  mem3out : OpcodeWord
  mem4out : OpcodeWord
  mem5out : OpcodeWord
  deriving DecidableEq, Repr

/-- The four constraints of 30_encoding.md R87, and nothing more. -/
abbrev OpenCodes.Distinct (c : OpenCodes) : Prop :=
  [c.ain, c.bin, c.cin].Nodup ∧
  [c.aout, c.bout, c.cout].Nodup ∧
  [0b011111#6, c.loadb, c.loadc].Nodup ∧
  [c.mem1in, c.mem2in, c.mem3in, c.mem4in, c.mem5in,
   c.mem1out, c.mem2out, c.mem3out, c.mem4out, c.mem5out].Nodup

/-- DESIGN CHOICE (log 1). The reference assignment of 92_eei_decisions.md D20, for simulators only.
It is the value State.reset carries, and no statement rests on it. -/
def OpenCodes.reference : OpenCodes where
  storehalf := 0b010001#6
  storeword := 0b010010#6
  loadhalf := 0b010101#6
  loadhalfun := 0b010110#6
  loadword := 0b010111#6
  ain := 0b100010#6
  bin := 0b100011#6
  cin := 0b100100#6
  aout := 0b100101#6
  bout := 0b100110#6
  cout := 0b100111#6
  loadb := 0b100000#6
  loadc := 0b100001#6
  mem1in := 0b101000#6
  mem2in := 0b101001#6
  mem3in := 0b101010#6
  mem4in := 0b101011#6
  mem5in := 0b101100#6
  mem1out := 0b101101#6
  mem2out := 0b101110#6
  mem3out := 0b101111#6
  mem4out := 0b110000#6
  mem5out := 0b110010#6

/-- The parameters a run is given (00_scope.md R9, R34). -/
structure Config where
  /-- `STEP_MODE`, supplied at invocation. -/
  stepMode : Bool
  /-- `OVERFLOW_POLICY`. -/
  overflow : OverflowPolicy
  /-- `RENDER_POLICY`. -/
  render   : RenderPolicy
  /-- `MIN_DIST`, the annotator's minimum marker distance. -/
  minDist  : Nat
  /-- `opc`. -/
  opc      : OpenCodes
  deriving DecidableEq, Repr

/-- The configurations a run may be given: the codes meet the constraints of 30_encoding.md R87. Run creation asks for it
(createRun), and the machine's invariant keeps it (MachineInv). -/
abbrev Config.WellFormed (cfg : Config) : Prop := cfg.opc.Distinct

/-- The default policies of 00_scope.md R9, the reference `MIN_DIST` and the reference codes (log 1). -/
def Config.default : Config where
  stepMode := false
  overflow := .truncate
  render   := .low32
  minDist  := 2
  opc      := .reference

end Sys2Proof
end

