-- ==== Sys2Proof/Machine/State.lean ====
section
/-! DEFINITION. The machine's state as plain data, its value at reset, and the reasons a step can stop. -/

namespace Sys2Proof.Machine

/-- The State Vector: 11 fields in slot order (10_state.md R20, R22). The field types carry the width invariant R21. -/
structure StateVector where
  /-- Slot 0, Register C. -/
  regC     : RegWord
  /-- Slot 1, Register B. -/
  regB     : RegWord
  /-- Slot 2, Register A, the accumulator (R24). -/
  regA     : RegWord
  /-- Slot 3, memory slot 5. -/
  mem5     : MemWord
  /-- Slot 4, memory slot 4. -/
  mem4     : MemWord
  /-- Slot 5, memory slot 3. -/
  mem3     : MemWord
  /-- Slot 6, memory slot 2. -/
  mem2     : MemWord
  /-- Slot 7, memory slot 1. -/
  mem1     : MemWord
  /-- Slot 8, the code of the last executed instruction (R28). -/
  opcode   : OpcodeWord
  /-- Slot 9, unused (R29). -/
  reserved : ReservedWord
  /-- Slot 10, the Flags field (R30). -/
  flags    : FlagsWord
  deriving DecidableEq, Repr

/-- The run-creation values of the State Vector (10_state.md R38, 70_reset_and_hazards.md R310). -/
def StateVector.initial : StateVector where
  regC := 0
  regB := 0
  regA := 0
  mem5 := 0
  mem4 := 0
  mem3 := 0
  mem2 := 0
  mem1 := 0
  opcode := 0b111111#6
  reserved := 0
  flags := 0

/-- The five errors, each with what its report calls "offending" (60_exceptions.md R281, R286). -/
inductive CoreError where
  /-- The offending token and its offset, 1 to 3. -/
  | unknownOperand (token : Token) (offset : Nat)
  /-- The divisor token. -/
  | divideByZero (divisor : Token)
  /-- The destination's slot index, its token if the instruction has one, and the unfitted result. -/
  | widthViolation (slot : Nat) (dest : Option Token) (result : Int)
  /-- The number of tokens that did follow. -/
  | truncatedInstruction (following : Nat)
  /-- The first slot whose value is 2^32 or more, and that value. -/
  | renderOverflow (slot : Nat) (value : Nat)
  deriving DecidableEq, Repr

/-- The fault report (60_exceptions.md R286). Its code and its error name are functions of `error`. -/
structure FaultReport where
  /-- The error, with the offending part. -/
  error    : CoreError
  /-- The position in the annotated stream of the faulting mnemonic. -/
  index    : Nat
  /-- The token at that position. -/
  mnemonic : Token
  deriving DecidableEq, Repr

/-- The engine's mode (10_state.md R32). -/
inductive Mode where
  | run
  | awaitAck
  | done
  | faulted (report : FaultReport)
  deriving DecidableEq, Repr

/-- One rendered field: `0x` and 8 hexadecimal digits (40_engine.md R121). -/
abbrev HexWord := List Char

/-- A render record: the 11 hex words in slot order (40_engine.md R120). -/
abbrev RenderRecord := List HexWord

/-- An entry of the output trace: a render record, or the run's final status (10_state.md R36). -/
inductive TraceEvent where
  | render (record : RenderRecord)
  | done
  | fault (report : FaultReport)
  deriving DecidableEq, Repr

/-- The whole machine. `program`, `cfg` and `ackInput` are the run's arguments, not state of the spec: the host's form of
step has no other place for them (logs 1, 2, 3). -/
structure State where
  /-- The State Vector. -/
  x        : StateVector
  /-- The engine's cursor into the annotated stream (10_state.md R33). -/
  pc       : Nat
  /-- The engine's mode (10_state.md R32). -/
  mode     : Mode
  /-- The output trace, oldest first (10_state.md R36). -/
  trace    : List TraceEvent
  /-- The annotated stream `P` (10_state.md R35, log 2). -/
  program  : List Token
  /-- The configuration (10_state.md R34, log 1). -/
  cfg      : Config
  /-- Whether the host's acknowledgment arrives at each coming step, one entry a step; none arrives past the end
  (40_engine.md R124, log 3). -/
  ackInput : List Bool
  deriving DecidableEq, Repr

/-- The machine at run creation (10_state.md R38, 70_reset_and_hazards.md R310). `program`, `cfg` and `ackInput` are the
model's own fields: DESIGN CHOICE, logs 1, 2, 3. -/
def State.reset : State where
  x := .initial
  pc := 0
  mode := .run
  trace := []
  program := []
  cfg := .default
  ackInput := []

/-- Why a step stops with a fault. The errors of 60_exceptions.md R281 are not here: they are taken, as a next state in
mode Faulted. -/
inductive Fault where
  /-- Raised by step when pc is beyond the end of the annotated stream, where the spec has no token to fetch
  (10_state.md R33, 93_implementation_defined.md I12). Safe: the machine stops, and no run reaches such a state (log 8). -/
  | fetchPastEnd
  deriving DecidableEq, Repr

/-- Why a step is refused. -/
inductive Refusal where
  /-- Raised by an arm of exec for an instruction that has no meaning yet. Safe. No arm raises it. -/
  | notModelled (mnemonic : String)
  deriving DecidableEq, Repr

end Sys2Proof.Machine
end

