-- ==== Sys2Proof/Machine/Annotator.lean ====
section
/-! DEFINITION. The Hazard/Stall Annotator (47_hazard_annotator.md) and run creation (70_reset_and_hazards.md R315).
The algorithm is the one of 47_hazard_annotator.md R261, the spec's own (92_eei_decisions.md D27, log 12). Positions are
indices into the list, as there. -/

namespace Sys2Proof.Machine

/-- The inserted marker. -/
def stallItem : Item := .tok Mnemonic.stall.token

/-- The token at a position, if a token stands there. -/
def tokenAt (A : List Item) (j : Nat) : Option Token :=
  match A[j]? with
  | some (.tok t) => some t
  | _ => none

/-- A marker more than `MIN_DIST` from the scan start and directly followed by a token (47_hazard_annotator.md R253). -/
def isCandidate (minDist : Nat) (A : List Item) (b : Int) (j : Nat) : Bool :=
  A[j]? == some .lb && decide ((minDist : Int) < (j : Int) - b) && (tokenAt A (j + 1)).isSome

/-- The window bound `W(j) = min(6, j - b - 1)` (47_hazard_annotator.md R254). -/
def window (b : Int) (j : Nat) : Int := min 6 ((j : Int) - b - 1)

/-- The probe at offset `-k` (47_hazard_annotator.md R255). -/
def probe (A : List Item) (b : Int) (j k : Nat) : Bool :=
  decide ((k : Int) ≤ window b j) && (tokenAt A (j - k)).isSome && tokenAt A (j - k) == tokenAt A (j + 1)

/-- The first probe set, then the wider one (47_hazard_annotator.md R256). -/
def hit (A : List Item) (b : Int) (j : Nat) : Bool :=
  [2, 3, 4].any (probe A b j) || [2, 3, 4, 5, 6].any (probe A b j)

/-- Two STALL tokens between `A[j]` and `A[j+1]` (47_hazard_annotator.md R258). -/
def insertStalls (A : List Item) (j : Nat) : List Item :=
  A.take (j + 1) ++ [stallItem, stallItem] ++ A.drop (j + 1)

/-- The scan (47_hazard_annotator.md R261). `fuel` bounds the iterations; each raises `j` (R264). -/
def scan (minDist : Nat) : Nat → List Item → Int → Nat → List Item
  | 0, A, _, _ => A
  | fuel + 1, A, b, j =>
    if j < A.length then
      if isCandidate minDist A b j && hit A b j then scan minDist fuel (insertStalls A j) j (j + 1)
      else scan minDist fuel A b (j + 1)
    else A

/-- `Annotate(RAW)` (47_hazard_annotator.md R250, R261). At most one insertion of two items a marker, so that three times
the raw length of iterations is enough. -/
def annotate (minDist : Nat) (raw : List Item) : List Token :=
  itemTokens (scan minDist (3 * raw.length) raw (-1) 0)

/-- Run creation: the state of 10_state.md R38 with the run's arguments, the annotated stream computed from the raw one
(70_reset_and_hazards.md R315). A run is given no codes but those that meet the constraints of 30_encoding.md R87. -/
def createRun (cfg : Config) (_ok : cfg.WellFormed) (raw : List Item) (acks : List Bool) : State :=
  { State.reset with program := annotate cfg.minDist raw, cfg := cfg, ackInput := acks }

/-- Stores tokens where the next fetch reads them, and puts the engine in mode Run. The stream is lengthened with tokens
that are skipped where it ends before pc. -/
def placeTokens (s : State) (ts : List Token) : State :=
  { s with
    mode := .run
    program := s.program.take s.pc ++ List.replicate (s.pc - s.program.length) "0".toList ++ ts
      ++ s.program.drop (s.pc + ts.length) }

end Sys2Proof.Machine
end

