-- ==== Sys2Proof/Machine/Flags.lean ====
section
/-! DEFINITION. The Flags field. No instruction updates it from a result (10_state.md R30, R31): there is no flag
computation, and the one place that says what completion leaves in the field is here. -/

namespace Sys2Proof.Machine

/-- What the completion of an instruction leaves in the Flags field: what it holds (10_state.md R31). -/
def flagsAfter (f : FlagsWord) : FlagsWord := f

end Sys2Proof.Machine
end

