-- ==== Sys2Proof/Machine/Operands.lean ====
section
/-! DEFINITION. The slots as operands: reading and writing a location, resolving an operand token, and the views an
operation takes of a resolved operand (40_engine.md R100 to R106). -/

namespace Sys2Proof.Machine

/-! ### Locations -/

/-- The slot index of a location (10_state.md R26). -/
def slotOf : Loc → Nat
  | .regC => 0
  | .regB => 1
  | .regA => 2
  | .mem5 => 3
  | .mem4 => 4
  | .mem3 => 5
  | .mem2 => 6
  | .mem1 => 7

/-- The width of a location (10_state.md R20). -/
def widthOf : Loc → Nat
  | .regC | .regB | .regA => 42
  | .mem5 | .mem4 | .mem3 | .mem2 | .mem1 => 12

/-- `x[i]` for a location: its unsigned value (00_scope.md R12). -/
def readLoc (l : Loc) (x : StateVector) : Nat :=
  match l with
  | .regC => x.regC.toNat
  | .regB => x.regB.toNat
  | .regA => x.regA.toNat
  | .mem5 => x.mem5.toNat
  | .mem4 => x.mem4.toNat
  | .mem3 => x.mem3.toNat
  | .mem2 => x.mem2.toNat
  | .mem1 => x.mem1.toNat

/-- `x[i] <- v` for a location (00_scope.md R12). The engine gives it fitted values only (40_engine.md R109). -/
def writeLoc (l : Loc) (v : Nat) (x : StateVector) : StateVector :=
  match l with
  | .regC => { x with regC := BitVec.ofNat 42 v }
  | .regB => { x with regB := BitVec.ofNat 42 v }
  | .regA => { x with regA := BitVec.ofNat 42 v }
  | .mem5 => { x with mem5 := BitVec.ofNat 12 v }
  | .mem4 => { x with mem4 := BitVec.ofNat 12 v }
  | .mem3 => { x with mem3 := BitVec.ofNat 12 v }
  | .mem2 => { x with mem2 := BitVec.ofNat 12 v }
  | .mem1 => { x with mem1 := BitVec.ofNat 12 v }

/-- The values of all 11 fields, in slot order (10_state.md R20, R22). -/
def fieldValues (x : StateVector) : List Nat :=
  [x.regC.toNat, x.regB.toNat, x.regA.toNat, x.mem5.toNat, x.mem4.toNat, x.mem3.toNat, x.mem2.toNat, x.mem1.toNat,
   x.opcode.toNat, x.reserved.toNat, x.flags.toNat]

/-! ### Resolution -/

/-- A resolved operand: a location with its value, or a literal (40_engine.md R100). -/
inductive Resolved where
  | loc (l : Loc) (u : Nat)
  | lit (n : Int)
  deriving DecidableEq, Repr

/-- `Resolve(t)` for a source operand at a token offset, against the State Vector before the instruction
(40_engine.md R100, R104). -/
def resolve (offset : Nat) (o : Operand) (x : StateVector) : Except CoreError Resolved :=
  match o with
  | .loc l _ => .ok (.loc l (readLoc l x))
  | .lit neg ds => .ok (.lit (literalValue neg ds))
  | .other t => .error (.unknownOperand t offset)

/-- `Dest(t)`: a destination must be a location name (40_engine.md R101). Every destination stands at offset 1
(30_encoding.md R73). -/
def destOf (o : Operand) : Except CoreError Loc :=
  match o with
  | .loc l _ => .ok l
  | .lit _ _ => .error (.unknownOperand o.text 1)
  | .other t => .error (.unknownOperand t 1)

/-! ### Views -/

/-- `sext_w(u)`: the two's-complement reading of a `w`-bit pattern (00_scope.md R12; 93_implementation_defined.md G1). -/
def sext (w u : Nat) : Int := if u.testBit (w - 1) then (u : Int) - 2 ^ w else (u : Int)

/-- The unsigned view (40_engine.md R102). -/
def Resolved.uv : Resolved → Int
  | .loc _ u => (u : Int)
  | .lit n => n

/-- The signed view (40_engine.md R103, log 9). -/
def Resolved.sv : Resolved → Int
  | .loc l u => sext (widthOf l) u
  | .lit n => n

/-- `ShiftSrc(o, wd)`: the bit pattern and the width a shift works on (40_engine.md R106). -/
def shiftSrc (wd : Nat) : Resolved → Nat × Nat
  | .loc l u => (u, widthOf l)
  | .lit n => ((n % 2 ^ wd).toNat, wd)

end Sys2Proof.Machine
end

