-- ==== Sys2Proof/Machine/Render.lean ====
section
/-! DEFINITION. The Hex Renderer (40_engine.md R120 to R123). -/

namespace Sys2Proof.Machine

/-- The hexadecimal digits, lower case (40_engine.md R121; 93_implementation_defined.md G2, I14; log 11). -/
def hexDigit : Nat → Char
  | 0 => '0' | 1 => '1' | 2 => '2' | 3 => '3' | 4 => '4' | 5 => '5' | 6 => '6' | 7 => '7'
  | 8 => '8' | 9 => '9' | 10 => 'a' | 11 => 'b' | 12 => 'c' | 13 => 'd' | 14 => 'e' | _ => 'f'

/-- The lowest `n` hexadecimal digits of a value, most significant first. -/
def hexDigits : Nat → Nat → List Char
  | 0, _ => []
  | n + 1, u => hexDigits n (u / 16) ++ [hexDigit (u % 16)]

/-- `H(v)`: `0x` and exactly 8 digits of `v mod 2^32` (40_engine.md R121). -/
def hexWord (v : Nat) : HexWord := '0' :: 'x' :: hexDigits 8 (v % 2 ^ 32)

/-- The record of a State Vector: its 11 fields in slot order (40_engine.md R120). -/
def renderRecord (x : StateVector) : RenderRecord := (fieldValues x).map hexWord

/-- The first slot, counting from `i`, whose value is 2^32 or more, and that value (60_exceptions.md R286). -/
def firstOver (i : Nat) : List Nat → Option (Nat × Nat)
  | [] => none
  | v :: vs => if 2 ^ 32 ≤ v then some (i, v) else firstOver (i + 1) vs

/-- `Render(x)` under the run's policy: it can raise under `fault` only (40_engine.md R120, R122). -/
def render (cfg : Config) (x : StateVector) : Except CoreError RenderRecord :=
  match cfg.render with
  | .low32 => .ok (renderRecord x)
  | .fault =>
    match firstOver 0 (fieldValues x) with
    | none => .ok (renderRecord x)
    | some (slot, value) => .error (.renderOverflow slot value)

/-- The value of a hexadecimal digit of the renderer's alphabet. -/
def hexValue (c : Char) : Option Nat := (List.range 16).find? fun d => hexDigit d == c

/-- Reads a string of digits as an unsigned number, most significant first; `acc` is what stands before it. -/
def readDigits : Nat → List Char → Option Nat
  | acc, [] => some acc
  | acc, c :: cs =>
    match hexValue c with
    | some d => readDigits (16 * acc + d) cs
    | none => none

/-- Reads a rendered field back (40_engine.md R123). -/
def readHexWord : HexWord → Option Nat
  | '0' :: 'x' :: ds => readDigits 0 ds
  | _ => none

end Sys2Proof.Machine
end

