-- ==== Sys2Proof/Machine/Ops.lean ====
section
/-! DEFINITION. What every instruction shares: its code, Fit, the pending write, completion, taking an error, skipping a
token, the end of the run and the acknowledgment (40_engine.md R107 to R127, 60_exceptions.md R280 to R288). -/

namespace Sys2Proof.Machine

/-! ### The Opcode field -/

/-- `code(m)`: the code of 30_encoding.md R85 where the source gives one, the parameter `opc(m)` otherwise (R86). -/
def codeOf (cfg : Config) : Mnemonic → OpcodeWord
  | .zero => 0b000000#6
  | .imm => 0b000001#6
  | .add => 0b000010#6
  | .sub => 0b000011#6
  | .mult => 0b000100#6
  | .mulths => 0b000101#6
  | .multhsu => 0b000110#6
  | .div => 0b000111#6
  | .divs => 0b001000#6
  | .divuns => 0b001001#6
  | .storebyte => 0b010000#6
  | .loadbyte => 0b010011#6
  | .loadbyteun => 0b010100#6
  | .storehalf => cfg.opc.storehalf
  | .storeword => cfg.opc.storeword
  | .loadhalf => cfg.opc.loadhalf
  | .loadhalfun => cfg.opc.loadhalfun
  | .loadword => cfg.opc.loadword
  | .setlessthan => 0b011000#6
  | .setlessthanun => 0b011001#6
  | .shiftleftlog => 0b011100#6
  | .shiftrightlog => 0b011100#6
  | .shiftrigharth => 0b011100#6
  | .shiftleftarth => 0b011101#6
  | .ain => cfg.opc.ain
  | .bin => cfg.opc.bin
  | .cin => cfg.opc.cin
  | .aout => cfg.opc.aout
  | .bout => cfg.opc.bout
  | .cout => cfg.opc.cout
  | .loada => 0b011111#6
  | .loadb => cfg.opc.loadb
  | .loadc => cfg.opc.loadc
  | .mem1in => cfg.opc.mem1in
  | .mem2in => cfg.opc.mem2in
  | .mem3in => cfg.opc.mem3in
  | .mem4in => cfg.opc.mem4in
  | .mem5in => cfg.opc.mem5in
  | .mem1out => cfg.opc.mem1out
  | .mem2out => cfg.opc.mem2out
  | .mem3out => cfg.opc.mem3out
  | .mem4out => cfg.opc.mem4out
  | .mem5out => cfg.opc.mem5out
  | .jump => 0b110001#6
  | .stall => 0b111110#6
  | .reset => 0b111111#6

/-! ### Errors -/

/-- The numeric code of an error (60_exceptions.md R281). -/
def CoreError.code : CoreError → Nat
  | .unknownOperand _ _ => 1
  | .divideByZero _ => 2
  | .widthViolation _ _ _ => 3
  | .truncatedInstruction _ => 4
  | .renderOverflow _ _ => 5

/-- Takes an error: the run is over, the mode holds the report and the trace ends with it. `index` is the position of the
faulting mnemonic. Nothing is saved for a return, and there is none (60_exceptions.md R280, R284, R286, R287). -/
def takeError (m : Mnemonic) (e : CoreError) (index : Nat) (s : State) : State :=
  { s with
    mode := .faulted ⟨e, index, m.token⟩
    trace := s.trace ++ [.fault ⟨e, index, m.token⟩] }

/-! ### The result of an operation -/

/-- What an operation produces: a pending write of an unbounded integer, nothing, or the reset (40_engine.md R107). -/
inductive Effect where
  | write (d : Loc) (r : Int)
  | nothing
  | reset
  deriving DecidableEq, Repr

/-- `Fit(d, r)`: the value stored for a result, or WidthViolation (40_engine.md R108). `dest` is the destination's token if
the instruction has one (60_exceptions.md R286). -/
def fit (cfg : Config) (d : Loc) (dest : Option Token) (r : Int) : Except CoreError Nat :=
  match cfg.overflow with
  | .truncate => .ok (r % 2 ^ widthOf d).toNat
  | .fault =>
    if 0 ≤ r ∧ r < 2 ^ widthOf d then .ok r.toNat
    else .error (.widthViolation (slotOf d) dest r)

/-! ### Completion -/

/-- The end of an executed instruction whose destination is already written in `x`: the Opcode write, pc past the operands,
the render and the step-mode pause, or RenderOverflow after the commit (40_engine.md R110 to R112, R120, R122, R124). -/
def complete (m : Mnemonic) (x : StateVector) (s : State) : State :=
  let x' := { x with opcode := codeOf s.cfg m, flags := flagsAfter x.flags }
  let s' := { s with x := x', pc := s.pc + 1 + m.arity }
  match render s.cfg x' with
  | .ok record =>
    { s' with
      trace := s.trace ++ [.render record]
      mode := if s.cfg.stepMode then .awaitAck else s.mode }
  | .error e => takeError m e s.pc s'

/-- Executes a dispatched instruction from its operation's result on: every check comes before any write
(40_engine.md R109, R111; 60_exceptions.md R283, R284). -/
def perform (m : Mnemonic) (dest : Option Token) (result : Except CoreError Effect) (s : State) :
    Host.Outcome State Fault Refusal :=
  match result with
  | .error e => .next (takeError m e s.pc s)
  | .ok .nothing => .next (complete m s.x s)
  | .ok .reset => .next (complete m .initial s)
  | .ok (.write d r) =>
    match fit s.cfg d dest r with
    | .error e => .next (takeError m e s.pc s)
    | .ok v => .next (complete m (writeLoc d v s.x) s)

/-! ### The operand shapes (30_encoding.md R73; 40_engine.md R105: operands resolve in token order) -/

/-- Format F3: `dest`, then `a`, then `b`. -/
def binary (dest a b : Operand) (op : Resolved → Resolved → Except CoreError Int) (x : StateVector) :
    Except CoreError Effect :=
  match destOf dest with
  | .error e => .error e
  | .ok d =>
    match resolve 2 a x with
    | .error e => .error e
    | .ok va =>
      match resolve 3 b x with
      | .error e => .error e
      | .ok vb =>
        match op va vb with
        | .error e => .error e
        | .ok r => .ok (.write d r)

/-- Format F2: `dest`, then `src`. The operation may use the destination's width. -/
def unary (dest src : Operand) (op : Nat → Resolved → Int) (x : StateVector) : Except CoreError Effect :=
  match destOf dest with
  | .error e => .error e
  | .ok d =>
    match resolve 2 src x with
    | .error e => .error e
    | .ok v => .ok (.write d (op (widthOf d) v))

/-- Format F1S: the implicit location receives `src` (45_transfer.md). -/
def inbound (l : Loc) (src : Operand) (x : StateVector) : Except CoreError Effect :=
  match resolve 1 src x with
  | .error e => .error e
  | .ok v => .ok (.write l v.uv)

/-- Format F1D: `dest` receives the implicit location (45_transfer.md). -/
def outbound (dest : Operand) (l : Loc) (x : StateVector) : Except CoreError Effect :=
  match destOf dest with
  | .error e => .error e
  | .ok d => .ok (.write d (readLoc l x))

/-! ### Steps that execute no instruction -/

/-- Skips a token that is no mnemonic (40_engine.md R114). -/
def skipToken (s : State) : State := { s with pc := s.pc + 1 }

/-- The end of the stream: the run is done (40_engine.md R111, R127). -/
def endRun (s : State) : State := { s with mode := .done, trace := s.trace ++ [.done] }

/-- One acknowledgment from the host: it ends the pause, and has no effect in any other mode (40_engine.md R124). -/
def acknowledge (s : State) : State :=
  match s.mode with
  | .awaitAck => { s with mode := .run }
  | .run | .done | .faulted _ => s

/-- Whether the host's acknowledgment arrives at this step (log 3). -/
def ackArrives (s : State) : Bool := s.ackInput.headD false

/-- The state once this step's host input is consumed (log 3). -/
def nextInput (s : State) : State := { s with ackInput := s.ackInput.tail }

/-- A step while the engine waits: on an acknowledgment it runs again, otherwise it goes on waiting
(40_engine.md R116, R124, R126). -/
def awaitStep (s : State) : State :=
  if ackArrives s then acknowledge (nextInput s) else nextInput s

end Sys2Proof.Machine
end

