-- ==== Sys2Proof/Machine/Arithmetic.lean ====
section
/-! DEFINITION. Arithmetic instructions (42_arithmetic.md). Results are unbounded integers (00_scope.md R11). -/

namespace Sys2Proof.Machine

/-- ADD: the sum of the unsigned views (42_arithmetic.md R150). -/
def execAdd (dest a b : Operand) (s : State) : Host.Outcome State Fault Refusal :=
  perform .add (some dest.text) (binary dest a b (fun va vb => .ok (va.uv + vb.uv)) s.x) s

/-- SUB: the difference of the unsigned views (42_arithmetic.md R151). -/
def execSub (dest a b : Operand) (s : State) : Host.Outcome State Fault Refusal :=
  perform .sub (some dest.text) (binary dest a b (fun va vb => .ok (va.uv - vb.uv)) s.x) s

/-- MULT: the low 32 bits of the product of the unsigned views (42_arithmetic.md R152). -/
def execMult (dest a b : Operand) (s : State) : Host.Outcome State Fault Refusal :=
  perform .mult (some dest.text) (binary dest a b (fun va vb => .ok (va.uv * vb.uv % 2 ^ 32)) s.x) s

/-- MULTHS: the full product of the signed views (42_arithmetic.md R153). -/
def execMulths (dest a b : Operand) (s : State) : Host.Outcome State Fault Refusal :=
  perform .mulths (some dest.text) (binary dest a b (fun va vb => .ok (va.sv * vb.sv)) s.x) s

/-- MULTHSU: the full product of the unsigned views (42_arithmetic.md R154). -/
def execMulthsu (dest a b : Operand) (s : State) : Host.Outcome State Fault Refusal :=
  perform .multhsu (some dest.text) (binary dest a b (fun va vb => .ok (va.uv * vb.uv)) s.x) s

/-- A quotient rounded toward zero, or DivideByZero naming the divisor token
(42_arithmetic.md R155; 00_scope.md R11; 93_implementation_defined.md G3; log 10). -/
def quotient (divisor : Operand) (n m : Int) : Except CoreError Int :=
  if m = 0 then .error (.divideByZero divisor.text) else .ok (n.tdiv m)

/-- DIV: the quotient of the unsigned views (42_arithmetic.md R155). -/
def execDiv (dest a b : Operand) (s : State) : Host.Outcome State Fault Refusal :=
  perform .div (some dest.text) (binary dest a b (fun va vb => quotient b va.uv vb.uv) s.x) s

/-- DIVS: the quotient of the signed views (42_arithmetic.md R156). -/
def execDivs (dest a b : Operand) (s : State) : Host.Outcome State Fault Refusal :=
  perform .divs (some dest.text) (binary dest a b (fun va vb => quotient b va.sv vb.sv) s.x) s

/-- DIVUNS: the quotient of the unsigned views (42_arithmetic.md R157). -/
def execDivuns (dest a b : Operand) (s : State) : Host.Outcome State Fault Refusal :=
  perform .divuns (some dest.text) (binary dest a b (fun va vb => quotient b va.uv vb.uv) s.x) s

end Sys2Proof.Machine
end

