-- ==== Sys2Proof/Machine/CompareShift.lean ====
section
/-! DEFINITION. Compare and shift instructions (44_compare_shift.md). -/

namespace Sys2Proof.Machine

/-- SETLESSTHAN: the difference of the signed views (44_compare_shift.md R190). -/
def execSetlessthan (dest a b : Operand) (s : State) : Host.Outcome State Fault Refusal :=
  perform .setlessthan (some dest.text) (binary dest a b (fun va vb => .ok (va.sv - vb.sv)) s.x) s

/-- SETLESSTHANUN: the difference of the unsigned views (44_compare_shift.md R191). -/
def execSetlessthanun (dest a b : Operand) (s : State) : Host.Outcome State Fault Refusal :=
  perform .setlessthanun (some dest.text) (binary dest a b (fun va vb => .ok (va.uv - vb.uv)) s.x) s

/-- The logical left shift by one within the width: the leading bit is dropped (44_compare_shift.md R192). -/
def shiftLeftLogical (p : Nat × Nat) : Int := ((2 * p.1 % 2 ^ p.2 : Nat) : Int)

/-- The logical right shift by one (44_compare_shift.md R193). -/
def shiftRightLogical (p : Nat × Nat) : Int := ((p.1 / 2 : Nat) : Int)

/-- The arithmetic right shift by one: the sign bit of the width is replicated (44_compare_shift.md R194). -/
def shiftRightArithmetic (p : Nat × Nat) : Int :=
  ((p.1 / 2 + (if p.1.testBit (p.2 - 1) then 2 ^ (p.2 - 1) else 0) : Nat) : Int)

/-- The arithmetic left shift by one: a zero bit is appended and nothing dropped (44_compare_shift.md R195). -/
def shiftLeftArithmetic (p : Nat × Nat) : Int := ((2 * p.1 : Nat) : Int)

/-- SHIFTLEFTLOG: the logical left shift by one (44_compare_shift.md R192). -/
def execShiftleftlog (dest src : Operand) (s : State) : Host.Outcome State Fault Refusal :=
  perform .shiftleftlog (some dest.text) (unary dest src (fun wd v => shiftLeftLogical (shiftSrc wd v)) s.x) s

/-- SHIFTRIGHTLOG: the logical right shift by one (44_compare_shift.md R193). -/
def execShiftrightlog (dest src : Operand) (s : State) : Host.Outcome State Fault Refusal :=
  perform .shiftrightlog (some dest.text) (unary dest src (fun wd v => shiftRightLogical (shiftSrc wd v)) s.x) s

/-- SHIFTRIGHARTH: the arithmetic right shift by one (44_compare_shift.md R194). -/
def execShiftrigharth (dest src : Operand) (s : State) : Host.Outcome State Fault Refusal :=
  perform .shiftrigharth (some dest.text) (unary dest src (fun wd v => shiftRightArithmetic (shiftSrc wd v)) s.x) s

/-- SHIFTLEFTARTH: the arithmetic left shift by one (44_compare_shift.md R195). -/
def execShiftleftarth (dest src : Operand) (s : State) : Host.Outcome State Fault Refusal :=
  perform .shiftleftarth (some dest.text) (unary dest src (fun wd v => shiftLeftArithmetic (shiftSrc wd v)) s.x) s

end Sys2Proof.Machine
end

