-- ==== Sys2Proof/Machine/Control.lean ====
section
/-! DEFINITION. Control instructions (46_control.md). -/

namespace Sys2Proof.Machine

/-- JUMP marks the Opcode field and transfers nothing (46_control.md R240). -/
def execJump (s : State) : Host.Outcome State Fault Refusal :=
  perform .jump none (.ok .nothing) s

/-- STALL marks the Opcode field (46_control.md R241). -/
def execStall (s : State) : Host.Outcome State Fault Refusal :=
  perform .stall none (.ok .nothing) s

/-- RESET restores the State Vector, and nothing else (46_control.md R242). -/
def execReset (s : State) : Host.Outcome State Fault Refusal :=
  perform .reset none (.ok .reset) s

end Sys2Proof.Machine
end

