-- ==== Sys2Proof/Machine/LoadStore.lean ====
section
/-! DEFINITION. Load- and store-named instructions: full-word moves and subtractions, never a memory access by address
(43_load_store.md). -/

namespace Sys2Proof.Machine

/-- STOREBYTE: the whole value of the source moves (43_load_store.md R170). -/
def execStorebyte (dest src : Operand) (s : State) : Host.Outcome State Fault Refusal :=
  perform .storebyte (some dest.text) (unary dest src (fun _ v => v.uv) s.x) s

/-- LOADBYTE: the whole value of the source moves (43_load_store.md R171). -/
def execLoadbyte (dest src : Operand) (s : State) : Host.Outcome State Fault Refusal :=
  perform .loadbyte (some dest.text) (unary dest src (fun _ v => v.uv) s.x) s

/-- LOADBYTEUN: the whole value of the source moves (43_load_store.md R172). -/
def execLoadbyteun (dest src : Operand) (s : State) : Host.Outcome State Fault Refusal :=
  perform .loadbyteun (some dest.text) (unary dest src (fun _ v => v.uv) s.x) s

/-- STOREHALF: the difference of the unsigned views (43_load_store.md R173). -/
def execStorehalf (dest a b : Operand) (s : State) : Host.Outcome State Fault Refusal :=
  perform .storehalf (some dest.text) (binary dest a b (fun va vb => .ok (va.uv - vb.uv)) s.x) s

/-- STOREWORD: the difference of the unsigned views (43_load_store.md R174). -/
def execStoreword (dest a b : Operand) (s : State) : Host.Outcome State Fault Refusal :=
  perform .storeword (some dest.text) (binary dest a b (fun va vb => .ok (va.uv - vb.uv)) s.x) s

/-- LOADHALF: the difference of the unsigned views (43_load_store.md R175). -/
def execLoadhalf (dest a b : Operand) (s : State) : Host.Outcome State Fault Refusal :=
  perform .loadhalf (some dest.text) (binary dest a b (fun va vb => .ok (va.uv - vb.uv)) s.x) s

/-- LOADHALFUN: the difference of the unsigned views (43_load_store.md R176). -/
def execLoadhalfun (dest a b : Operand) (s : State) : Host.Outcome State Fault Refusal :=
  perform .loadhalfun (some dest.text) (binary dest a b (fun va vb => .ok (va.uv - vb.uv)) s.x) s

/-- LOADWORD: the difference of the unsigned views (43_load_store.md R177). -/
def execLoadword (dest a b : Operand) (s : State) : Host.Outcome State Fault Refusal :=
  perform .loadword (some dest.text) (binary dest a b (fun va vb => .ok (va.uv - vb.uv)) s.x) s

end Sys2Proof.Machine
end

