-- ==== Sys2Proof/Machine/Markers.lean ====
section
/-! DEFINITION. Marker instructions (41_markers.md). -/

namespace Sys2Proof.Machine

/-- ZERO marks the Opcode field and clears nothing (41_markers.md R140). -/
def execZero (s : State) : Host.Outcome State Fault Refusal :=
  perform .zero none (.ok .nothing) s

/-- IMM marks the Opcode field and takes no operand (41_markers.md R141). -/
def execImm (s : State) : Host.Outcome State Fault Refusal :=
  perform .imm none (.ok .nothing) s

end Sys2Proof.Machine
end

