-- ==== Sys2Proof/Machine/Transfer.lean ====
section
/-! DEFINITION. Register and memory transfers (45_transfer.md). -/

namespace Sys2Proof.Machine

/-- AIN: Register A receives the source (45_transfer.md R210). -/
def execAin (src : Operand) (s : State) : Host.Outcome State Fault Refusal :=
  perform .ain none (inbound .regA src s.x) s

/-- BIN: Register B receives the source (45_transfer.md R211). -/
def execBin (src : Operand) (s : State) : Host.Outcome State Fault Refusal :=
  perform .bin none (inbound .regB src s.x) s

/-- CIN: Register C receives the source (45_transfer.md R212). -/
def execCin (src : Operand) (s : State) : Host.Outcome State Fault Refusal :=
  perform .cin none (inbound .regC src s.x) s

/-- AOUT: the destination receives Register A (45_transfer.md R213). -/
def execAout (dest : Operand) (s : State) : Host.Outcome State Fault Refusal :=
  perform .aout (some dest.text) (outbound dest .regA s.x) s

/-- BOUT: the destination receives Register B (45_transfer.md R214). -/
def execBout (dest : Operand) (s : State) : Host.Outcome State Fault Refusal :=
  perform .bout (some dest.text) (outbound dest .regB s.x) s

/-- COUT: the destination receives Register C (45_transfer.md R215). -/
def execCout (dest : Operand) (s : State) : Host.Outcome State Fault Refusal :=
  perform .cout (some dest.text) (outbound dest .regC s.x) s

/-- LOADA: Register A receives the source (45_transfer.md R216). -/
def execLoada (src : Operand) (s : State) : Host.Outcome State Fault Refusal :=
  perform .loada none (inbound .regA src s.x) s

/-- LOADB: Register B receives the source (45_transfer.md R217). -/
def execLoadb (src : Operand) (s : State) : Host.Outcome State Fault Refusal :=
  perform .loadb none (inbound .regB src s.x) s

/-- LOADC: Register C receives the source (45_transfer.md R218). -/
def execLoadc (src : Operand) (s : State) : Host.Outcome State Fault Refusal :=
  perform .loadc none (inbound .regC src s.x) s

/-- MEM1IN: memory slot 1 receives the source (45_transfer.md R219). -/
def execMem1in (src : Operand) (s : State) : Host.Outcome State Fault Refusal :=
  perform .mem1in none (inbound .mem1 src s.x) s

/-- MEM2IN: memory slot 2 receives the source (45_transfer.md R220). -/
def execMem2in (src : Operand) (s : State) : Host.Outcome State Fault Refusal :=
  perform .mem2in none (inbound .mem2 src s.x) s

/-- MEM3IN: memory slot 3 receives the source (45_transfer.md R221). -/
def execMem3in (src : Operand) (s : State) : Host.Outcome State Fault Refusal :=
  perform .mem3in none (inbound .mem3 src s.x) s

/-- MEM4IN: memory slot 4 receives the source (45_transfer.md R222). -/
def execMem4in (src : Operand) (s : State) : Host.Outcome State Fault Refusal :=
  perform .mem4in none (inbound .mem4 src s.x) s

/-- MEM5IN: memory slot 5 receives the source (45_transfer.md R223). -/
def execMem5in (src : Operand) (s : State) : Host.Outcome State Fault Refusal :=
  perform .mem5in none (inbound .mem5 src s.x) s

/-- MEM1OUT: the destination receives memory slot 1 (45_transfer.md R224). -/
def execMem1out (dest : Operand) (s : State) : Host.Outcome State Fault Refusal :=
  perform .mem1out (some dest.text) (outbound dest .mem1 s.x) s

/-- MEM2OUT: the destination receives memory slot 2 (45_transfer.md R225). -/
def execMem2out (dest : Operand) (s : State) : Host.Outcome State Fault Refusal :=
  perform .mem2out (some dest.text) (outbound dest .mem2 s.x) s

/-- MEM3OUT: the destination receives memory slot 3 (45_transfer.md R226). -/
def execMem3out (dest : Operand) (s : State) : Host.Outcome State Fault Refusal :=
  perform .mem3out (some dest.text) (outbound dest .mem3 s.x) s

/-- MEM4OUT: the destination receives memory slot 4 (45_transfer.md R227). -/
def execMem4out (dest : Operand) (s : State) : Host.Outcome State Fault Refusal :=
  perform .mem4out (some dest.text) (outbound dest .mem4 s.x) s

/-- MEM5OUT: the destination receives memory slot 5 (45_transfer.md R228). -/
def execMem5out (dest : Operand) (s : State) : Host.Outcome State Fault Refusal :=
  perform .mem5out (some dest.text) (outbound dest .mem5 s.x) s

end Sys2Proof.Machine
end

