-- ==== Sys2Proof/Machine/Dispatch.lean ====
section
/-! DEFINITION. exec: one arm per constructor of Instr, each one call of its meaning (40_engine.md R113). -/

namespace Sys2Proof.Machine

def exec (i : Instr) (s : State) : Host.Outcome State Fault Refusal :=
  match i with
  | .zero => Sys2Proof.Machine.execZero s
  | .imm => Sys2Proof.Machine.execImm s
  | .add dest a b => Sys2Proof.Machine.execAdd dest a b s
  | .sub dest a b => Sys2Proof.Machine.execSub dest a b s
  | .mult dest a b => Sys2Proof.Machine.execMult dest a b s
  | .mulths dest a b => Sys2Proof.Machine.execMulths dest a b s
  | .multhsu dest a b => Sys2Proof.Machine.execMulthsu dest a b s
  | .div dest a b => Sys2Proof.Machine.execDiv dest a b s
  | .divs dest a b => Sys2Proof.Machine.execDivs dest a b s
  | .divuns dest a b => Sys2Proof.Machine.execDivuns dest a b s
  | .storebyte dest src => Sys2Proof.Machine.execStorebyte dest src s
  | .loadbyte dest src => Sys2Proof.Machine.execLoadbyte dest src s
  | .loadbyteun dest src => Sys2Proof.Machine.execLoadbyteun dest src s
  | .storehalf dest a b => Sys2Proof.Machine.execStorehalf dest a b s
  | .storeword dest a b => Sys2Proof.Machine.execStoreword dest a b s
  | .loadhalf dest a b => Sys2Proof.Machine.execLoadhalf dest a b s
  | .loadhalfun dest a b => Sys2Proof.Machine.execLoadhalfun dest a b s
  | .loadword dest a b => Sys2Proof.Machine.execLoadword dest a b s
  | .setlessthan dest a b => Sys2Proof.Machine.execSetlessthan dest a b s
  | .setlessthanun dest a b => Sys2Proof.Machine.execSetlessthanun dest a b s
  | .shiftleftlog dest src => Sys2Proof.Machine.execShiftleftlog dest src s
  | .shiftrightlog dest src => Sys2Proof.Machine.execShiftrightlog dest src s
  | .shiftrigharth dest src => Sys2Proof.Machine.execShiftrigharth dest src s
  | .shiftleftarth dest src => Sys2Proof.Machine.execShiftleftarth dest src s
  | .ain src => Sys2Proof.Machine.execAin src s
  | .bin src => Sys2Proof.Machine.execBin src s
  | .cin src => Sys2Proof.Machine.execCin src s
  | .aout dest => Sys2Proof.Machine.execAout dest s
  | .bout dest => Sys2Proof.Machine.execBout dest s
  | .cout dest => Sys2Proof.Machine.execCout dest s
  | .loada src => Sys2Proof.Machine.execLoada src s
  | .loadb src => Sys2Proof.Machine.execLoadb src s
  | .loadc src => Sys2Proof.Machine.execLoadc src s
  | .mem1in src => Sys2Proof.Machine.execMem1in src s
  | .mem2in src => Sys2Proof.Machine.execMem2in src s
  | .mem3in src => Sys2Proof.Machine.execMem3in src s
  | .mem4in src => Sys2Proof.Machine.execMem4in src s
  | .mem5in src => Sys2Proof.Machine.execMem5in src s
  | .mem1out dest => Sys2Proof.Machine.execMem1out dest s
  | .mem2out dest => Sys2Proof.Machine.execMem2out dest s
  | .mem3out dest => Sys2Proof.Machine.execMem3out dest s
  | .mem4out dest => Sys2Proof.Machine.execMem4out dest s
  | .mem5out dest => Sys2Proof.Machine.execMem5out dest s
  | .jump => Sys2Proof.Machine.execJump s
  | .stall => Sys2Proof.Machine.execStall s
  | .reset => Sys2Proof.Machine.execReset s

end Sys2Proof.Machine
end

