-- ==== Sys2Proof/Machine/Cycle.lean ====
section
/-! DEFINITION. The decode/execute cycle (40_engine.md R111, R116, R124): fetching at pc and one step of the engine. -/

namespace Sys2Proof.Machine

/-- What the decoder reads at pc: whole tokens of the annotated stream (20_memory.md R55, R62). -/
def fetch (s : State) : Decoded := decode (s.program.drop s.pc)

/-- A step in mode Run (40_engine.md R111). -/
def stepRun (s : State) : Host.Outcome State Fault Refusal :=
  match fetch s with
  | .instr i _ => exec i s
  | .notMnemonic _ _ => .next (skipToken s)
  | .truncated m following => .next (takeError m (.truncatedInstruction following) s.pc s)
  | .endOfStream => if s.pc ≤ s.program.length then .next (endRun s) else .fault .fetchPastEnd

/-- One step of the engine. This step's host input is consumed first; it matters in AwaitAck only (log 3). Done and Faulted
are terminal: the state stays as it is (10_state.md R37, log 4). -/
def cycle (s : State) : Host.Outcome State Fault Refusal :=
  match s.mode with
  | .run => stepRun (nextInput s)
  | .awaitAck => .next (awaitStep s)
  | .done => .next s
  | .faulted _ => .next s

end Sys2Proof.Machine
end

