-- ==== Sys2Proof/Machine/Step.lean ====
section
/-! DEFINITION. The machine's step, and the placing of an instruction where the next step fetches. -/

namespace Sys2Proof.Machine

/-- One step of the machine (40_engine.md R111, R116, R124). -/
def step (s : State) : Host.Outcome State Fault Refusal := cycle s

/-- `s` with the tokens of the instruction word `w` stored where step fetches its next instruction (logs 2, 5). -/
def State.withFetchWord (s : State) (nbits w : Nat) : State := placeTokens s (wordTokens nbits w)

end Sys2Proof.Machine
end

