-- ==== Sys2Proof/WellFormed.lean ====
section
/-! DEFINITION. Which instruction terms stand for an instruction of some stream. The engine runs every term; a term that is
not well-formed is one no stream decodes to. -/

namespace Sys2Proof

/-- A token of a stream is not empty and holds no separator (00_scope.md R13, 30_encoding.md R70; which characters separate is
log 16). -/
abbrev Token.WellFormed (t : Token) : Prop := t ≠ [] ∧ ∀ c ∈ t, isSeparator c = false

/-- An operand is well-formed when its class is the class of the token it is written as (30_encoding.md R75):
a literal has a digit (R77), and an "other" token is a token, no location name and no literal (R78). -/
abbrev Operand.WellFormed : Operand → Prop
  | .loc _ _ => True
  | .lit _ ds => ds ≠ []
  | .other t => Token.WellFormed t ∧ locationOf? t = none ∧ literalOf? t = none

/-- An instruction is well-formed when its operands are. -/
abbrev Instr.WellFormed (i : Instr) : Prop := ∀ o ∈ i.operands, o.WellFormed

end Sys2Proof
end

