-- ==== Sys2Proof/Safety.lean ====
section
/-! DEFINITION. The terms in which claims about the machine are made: the states the rules of the spec describe, written out
field by field; the shapes of the instruction rules; the machine's invariant; a stream with stalls inserted. -/

namespace Sys2Proof.Machine

/-! ### Runs -/

/-- `Done` and `Faulted` are terminal (10_state.md R32). -/
def Mode.terminal : Mode → Bool
  | .run | .awaitAck => false
  | .done | .faulted _ => true

/-- `k` steps of the machine, through the host's interface. -/
def runSteps (k : Nat) (s : State) : Host.Outcome State Fault Refusal := Sys2Proof.core.run k s

/-- A run is safe so far when no error has ended it. -/
def Safe (s : State) : Prop := ∀ r, s.mode ≠ .faulted r

/-- What the trace ends with once the run is over: its final status (10_state.md R36). -/
def statusOf : Mode → List TraceEvent
  | .run | .awaitAck => []
  | .done => [.done]
  | .faulted r => [.fault r]

/-! ### Operands and results -/

/-- The value an operand stands for in a State Vector, if it is a location or a literal (40_engine.md R100). -/
def valueOf (x : StateVector) : Operand → Option Resolved
  | .loc l _ => some (.loc l (readLoc l x))
  | .lit neg ds => some (.lit (literalValue neg ds))
  | .other _ => none

/-- The location an operand names, if it is a location name. -/
def namedLoc? : Operand → Option Loc
  | .loc l _ => some l
  | .lit _ _ => none
  | .other _ => none

/-- The location an instruction writes: the one its `dest` names, or its implicit one (30_encoding.md R73; 45_transfer.md). -/
def targetOf? : Instr → Option Loc
  | .zero | .imm | .jump | .stall | .reset => none
  | .ain _ | .loada _ => some .regA
  | .bin _ | .loadb _ => some .regB
  | .cin _ | .loadc _ => some .regC
  | .mem1in _ => some .mem1
  | .mem2in _ => some .mem2
  | .mem3in _ => some .mem3
  | .mem4in _ => some .mem4
  | .mem5in _ => some .mem5
  | i => i.operands.head?.bind namedLoc?

/-- A result that `Fit` accepts: any under `truncate`, one in the destination's range under `fault` (40_engine.md R108). -/
abbrev Fits (cfg : Config) (d : Loc) (r : Int) : Prop :=
  cfg.overflow = .truncate ∨ (0 ≤ r ∧ r < 2 ^ widthOf d)

/-- A State Vector that `Render` accepts (40_engine.md R122). -/
abbrev Renderable (cfg : Config) (x : StateVector) : Prop :=
  cfg.render = .low32 ∨ ∀ v ∈ fieldValues x, v < 2 ^ 32

/-- `slot` is the first slot whose value is 2^32 or more, and `v` is that value (60_exceptions.md R286). -/
abbrev FirstOver (x : StateVector) (slot v : Nat) : Prop :=
  (fieldValues x)[slot]? = some v ∧ 2 ^ 32 ≤ v ∧ ∀ u ∈ (fieldValues x).take slot, u < 2 ^ 32

/-- The State Vector after a result is stored in `d` and a code in the Opcode field (40_engine.md R108 to R110). -/
def stored (x : StateVector) (d : Loc) (r : Int) (code : OpcodeWord) : StateVector :=
  { writeLoc d (r % 2 ^ widthOf d).toNat x with opcode := code }

/-! ### The states the rules lead to -/

/-- An error of code 1 to 4 was raised: the report, and nothing else written (60_exceptions.md R284, R286). -/
def afterError (s : State) (m : Token) (e : CoreError) : State where
  x := s.x
  pc := s.pc
  mode := .faulted { error := e, index := s.pc, mnemonic := m }
  trace := s.trace ++ [.fault { error := e, index := s.pc, mnemonic := m }]
  program := s.program
  cfg := s.cfg
  ackInput := s.ackInput

/-- An instruction of arity `n` committed the State Vector `x`: pc past its tokens, one render record, a pause in step mode
(40_engine.md R111, R112, R120, R124). -/
def afterCommit (s : State) (n : Nat) (x : StateVector) : State where
  x := x
  pc := s.pc + (1 + n)
  mode := if s.cfg.stepMode then .awaitAck else s.mode
  trace := s.trace ++ [.render (renderRecord x)]
  program := s.program
  cfg := s.cfg
  ackInput := s.ackInput

/-- An instruction of arity `n` committed the State Vector `x` and its render raised RenderOverflow
(60_exceptions.md R284, R286). -/
def afterOverflow (s : State) (m : Token) (n : Nat) (x : StateVector) (slot v : Nat) : State where
  x := x
  pc := s.pc + (1 + n)
  mode := .faulted { error := .renderOverflow slot v, index := s.pc, mnemonic := m }
  trace := s.trace ++ [.fault { error := .renderOverflow slot v, index := s.pc, mnemonic := m }]
  program := s.program
  cfg := s.cfg
  ackInput := s.ackInput

/-- The outcome of an instruction that commits `x`: a commit, or a commit followed by RenderOverflow. -/
structure CommitsTo (o : Host.Outcome State Fault Refusal) (s : State) (m : Token) (n : Nat) (x : StateVector) : Prop where
  rendered : Renderable s.cfg x → o = .next (afterCommit s n x)
  overflowed : s.cfg.render = .fault → ∀ slot v, FirstOver x slot v → o = .next (afterOverflow s m n x slot v)

/-- The outcome of an instruction whose pending write is `r` to `d`: a commit, or WidthViolation (40_engine.md R108, R109). -/
structure WritesTo (o : Host.Outcome State Fault Refusal) (s : State) (m : Token) (n : Nat) (dest : Option Token) (d : Loc)
    (r : Int) (code : OpcodeWord) : Prop where
  fits : Fits s.cfg d r → CommitsTo o s m n (stored s.x d r code)
  tooWide : ¬ Fits s.cfg d r → o = .next (afterError s m (.widthViolation (slotOf d) dest r))

/-! ### The shapes of the instruction rules -/

/-- The rule of an instruction without operands that writes the Opcode field only (41_markers.md, 46_control.md). -/
def MarkerRule (m : Token) (i : Instr) (code : Config → OpcodeWord) : Prop :=
  ∀ s, CommitsTo (exec i s) s m 0 { s.x with opcode := code s.cfg }

/-- The rule of an instruction of format F3 (42_arithmetic.md, 43_load_store.md, 44_compare_shift.md): `zeroDivisor` says
for which `b` it raises DivideByZero, `op` is its result. -/
structure ThreeOperandRule (m : Token) (mk : Operand → Operand → Operand → Instr) (code : Config → OpcodeWord)
    (zeroDivisor : Resolved → Prop) (op : Resolved → Resolved → Int) : Prop where
  badDest : ∀ dest a b s, (∀ d sp, dest ≠ .loc d sp) →
    exec (mk dest a b) s = .next (afterError s m (.unknownOperand dest.text 1))
  badFirst : ∀ d sp t b s, exec (mk (.loc d sp) (.other t) b) s = .next (afterError s m (.unknownOperand t 2))
  badSecond : ∀ d sp a va t s, valueOf s.x a = some va →
    exec (mk (.loc d sp) a (.other t)) s = .next (afterError s m (.unknownOperand t 3))
  byZero : ∀ d sp a b va vb s, valueOf s.x a = some va → valueOf s.x b = some vb → zeroDivisor vb →
    exec (mk (.loc d sp) a b) s = .next (afterError s m (.divideByZero b.text))
  result : ∀ d sp a b va vb s, valueOf s.x a = some va → valueOf s.x b = some vb → ¬ zeroDivisor vb →
    WritesTo (exec (mk (.loc d sp) a b) s) s m 3 (some (locName d sp)) d (op va vb) (code s.cfg)

/-- The rule of an instruction of format F2 (43_load_store.md, 44_compare_shift.md): `op` takes the destination's width. -/
structure TwoOperandRule (m : Token) (mk : Operand → Operand → Instr) (code : Config → OpcodeWord)
    (op : Nat → Resolved → Int) : Prop where
  badDest : ∀ dest src s, (∀ d sp, dest ≠ .loc d sp) →
    exec (mk dest src) s = .next (afterError s m (.unknownOperand dest.text 1))
  badSource : ∀ d sp t s, exec (mk (.loc d sp) (.other t)) s = .next (afterError s m (.unknownOperand t 2))
  result : ∀ d sp src v s, valueOf s.x src = some v →
    WritesTo (exec (mk (.loc d sp) src) s) s m 2 (some (locName d sp)) d (op (widthOf d) v) (code s.cfg)

/-- The rule of an "in" transfer of format F1S: the implicit location `l` receives `src` (45_transfer.md). -/
structure InboundRule (m : Token) (mk : Operand → Instr) (code : Config → OpcodeWord) (l : Loc) : Prop where
  badSource : ∀ t s, exec (mk (.other t)) s = .next (afterError s m (.unknownOperand t 1))
  result : ∀ src v s, valueOf s.x src = some v → WritesTo (exec (mk src) s) s m 1 none l v.uv (code s.cfg)

/-- The rule of an "out" transfer of format F1D: `dest` receives the implicit location `l` (45_transfer.md). -/
structure OutboundRule (m : Token) (mk : Operand → Instr) (code : Config → OpcodeWord) (l : Loc) : Prop where
  badDest : ∀ dest s, (∀ d sp, dest ≠ .loc d sp) →
    exec (mk dest) s = .next (afterError s m (.unknownOperand dest.text 1))
  result : ∀ d sp s,
    WritesTo (exec (mk (.loc d sp)) s) s m 1 (some (locName d sp)) d (readLoc l s.x) (code s.cfg)

/-! ### The invariant -/

/-- What every step keeps, in the spec's own terms. The widths (10_state.md R21) are in the types. -/
structure MachineInv (s : State) : Prop where
  /-- The codes the run was given meet their constraints (30_encoding.md R87). -/
  codesDistinct : s.cfg.WellFormed
  /-- pc ranges over `0..|P|` (10_state.md R33). -/
  pcInStream : s.pc ≤ s.program.length
  /-- The reserved field holds 0 at all times (10_state.md R29). -/
  reservedZero : s.x.reserved = 0
  /-- The Flags field holds 0 at all times (10_state.md R30). -/
  flagsZero : s.x.flags = 0
  /-- Only codes some mnemonic takes appear in the Opcode field (10_state.md R28). -/
  opcodeKnown : ∃ m, s.x.opcode = codeOf s.cfg m
  /-- Without step mode the engine never enters AwaitAck (40_engine.md R124). -/
  pauseInStepMode : s.mode = .awaitAck → s.cfg.stepMode = true
  /-- A run is Done at the end of the stream (40_engine.md R127). -/
  doneAtEnd : s.mode = .done → s.pc = s.program.length
  /-- The trace is render records, then the final status (10_state.md R36). The last record shows the State Vector, unless
  the run ended in RenderOverflow (60_exceptions.md R284). -/
  traceForm : ∃ records : List RenderRecord, s.trace = records.map .render ++ statusOf s.mode ∧
    ((∀ r, s.mode = .faulted r → r.error.code ≠ 5) →
      (records = [] ∧ s.x = .initial) ∨ records.getLast? = some (renderRecord s.x))
  /-- Under `RENDER_POLICY = fault` every register is below 2^32 until RenderOverflow ends the run (40_engine.md R122). -/
  renderable : s.cfg.render = .fault → (∀ r, s.mode = .faulted r → r.error.code ≠ 5) → ∀ v ∈ fieldValues s.x, v < 2 ^ 32
  /-- The report names the mnemonic at its index; pc stands there, or past the instruction after RenderOverflow
  (60_exceptions.md R284, R286). -/
  report : ∀ r, s.mode = .faulted r → ∃ m, mnemonicOf? r.mnemonic = some m ∧ s.program[r.index]? = some r.mnemonic ∧
    s.pc = if r.error.code = 5 then r.index + (1 + m.arity) else r.index

/-! ### Fields no instruction reads -/

/-- Two states that differ at most in the Opcode, reserved and Flags fields and in the trace, where the renderer has shown
these fields (10_state.md R28 to R30). -/
structure SameButControl (s t : State) : Prop where
  locs : ∀ l, readLoc l s.x = readLoc l t.x
  pc : s.pc = t.pc
  mode : s.mode = t.mode
  program : s.program = t.program
  cfg : s.cfg = t.cfg
  ackInput : s.ackInput = t.ackInput

/-! ### The annotator (47_hazard_annotator.md) -/

/-- Position `j` triggers: it is a marker more than `MIN_DIST` from the scan start `b`, a token follows it, and at some offset
within the window the same token stands (47_hazard_annotator.md R253 to R257). -/
def Triggers (minDist : Nat) (A : List Item) (b : Int) (j : Nat) : Prop :=
  A[j]? = some .lb ∧ (minDist : Int) < (j : Int) - b ∧ ∃ t, A[j + 1]? = some (.tok t) ∧
    ∃ k : Nat, 2 ≤ k ∧ (k : Int) ≤ min 6 ((j : Int) - b - 1) ∧ A[j - k]? = some (.tok t)

/-- Two STALL tokens after the marker at `j` (47_hazard_annotator.md R258). -/
def withStalls (A : List Item) (j : Nat) : List Item :=
  A.take (j + 1) ++ [.tok "STALL".toList, .tok "STALL".toList] ++ A.drop (j + 1)

/-- `Scanned minDist A b j n B`: the scan of `A` from position `j` with scan start `b` ends with the items `B` after `n`
triggers (47_hazard_annotator.md R252, R258, R259). -/
inductive Scanned (minDist : Nat) : List Item → Int → Nat → Nat → List Item → Prop where
  | done {A : List Item} {b : Int} {j : Nat} : A.length ≤ j → Scanned minDist A b j 0 A
  | insert {A : List Item} {b : Int} {j n : Nat} {B : List Item} : j < A.length → Triggers minDist A b j →
      Scanned minDist (withStalls A j) j (j + 1) n B → Scanned minDist A b j (n + 1) B
  | pass {A : List Item} {b : Int} {j n : Nat} {B : List Item} : j < A.length → ¬ Triggers minDist A b j →
      Scanned minDist A b (j + 1) n B → Scanned minDist A b j n B

/-- `StallPairs A n p`: `p` is the tokens of `A`, in their order, with two STALL tokens directly after `n` of its markers
(47_hazard_annotator.md R258, R260). -/
inductive StallPairs : List Item → Nat → List Token → Prop where
  | nil : StallPairs [] 0 []
  | tok {t : Token} {A : List Item} {n : Nat} {p : List Token} : StallPairs A n p → StallPairs (.tok t :: A) n (t :: p)
  | lb {A : List Item} {n : Nat} {p : List Token} : StallPairs A n p → StallPairs (.lb :: A) n p
  | pair {A : List Item} {n : Nat} {p : List Token} : StallPairs A n p →
      StallPairs (.lb :: A) (n + 1) ("STALL".toList :: "STALL".toList :: p)

/-! ### Inserted stalls (47_hazard_annotator.md R262, R266) -/

/-- `StallExpansion p q`: `q` is the stream `p` with STALL tokens inserted at dispatch positions. -/
inductive StallExpansion : List Token → List Token → Prop where
  | nil : StallExpansion [] []
  | stall {p q : List Token} : StallExpansion p q → StallExpansion p (Mnemonic.stall.token :: q)
  | skipped {t : Token} {p q : List Token} : mnemonicOf? t = none → StallExpansion p q → StallExpansion (t :: p) (t :: q)
  | instr {i : Instr} {ts p q : List Token} : decode (ts ++ p) = .instr i p → StallExpansion p q →
      StallExpansion (ts ++ p) (ts ++ q)
  | cutOff {m : Mnemonic} {k : Nat} {p : List Token} : decode p = .truncated m k → StallExpansion p p

/-- A source line that holds exactly one whole instruction (47_hazard_annotator.md R262). -/
def WholeLine (line : List Token) : Prop := ∃ i, decode line = .instr i []

/-- The raw stream of a list of lines: a marker at each line break (30_encoding.md R70). -/
def rawOfLines : List (List Token) → List Item
  | [] => []
  | [line] => line.map .tok
  | line :: lines => line.map .tok ++ .lb :: rawOfLines lines

end Sys2Proof.Machine
end

