-- ==== Sys2Proof/Certificates/Slice0/Obligations.lean ====
section
/-! DEFINITION. The statements for the provers. Each docstring names the rule of the spec it formalises. Where a statement
rests on a decision the spec marks as its own (92_eei_decisions.md) or on a choice of the model (a log entry), it says so. -/

open Sys2Proof Sys2Proof.Machine

/-! ### Encoding -/

/-- A few token lists written out from 30_encoding.md R73, R76, R77 and R81, and what they decode to; and the 16 location
names of R76. -/
def Obligations.SampleTokensDecode : Prop :=
  decode ["ADD".toList, "RegA".toList, "3".toList, "-04".toList, "JUMP".toList] =
      .instr (.add (.loc .regA .source) (.lit false [3]) (.lit true [0, 4])) ["JUMP".toList] ∧
  decode ["SHIFTRIGHARTH".toList, "MEM2".toList, "Mem1".toList] =
      .instr (.shiftrigharth (.loc .mem2 .upper) (.loc .mem1 .source)) [] ∧
  decode ["AOUT".toList, "STALL".toList] = .instr (.aout (.other "STALL".toList)) [] ∧
  decode ["MEM5IN".toList, "REGB".toList] = .instr (.mem5in (.loc .regB .upper)) [] ∧
  decode ["RESET".toList] = .instr .reset [] ∧
  decode ["SHIFTRIGHTARTH".toList, "RegA".toList] = .notMnemonic "SHIFTRIGHTARTH".toList ["RegA".toList] ∧
  ["RegC".toList, "RegB".toList, "RegA".toList, "Mem5".toList, "Mem4".toList, "Mem3".toList, "Mem2".toList,
    "Mem1".toList].map operandOf =
      [Loc.regC, .regB, .regA, .mem5, .mem4, .mem3, .mem2, .mem1].map (fun l => .loc l .source) ∧
  ["REGC".toList, "REGB".toList, "REGA".toList, "MEM5".toList, "MEM4".toList, "MEM3".toList, "MEM2".toList,
    "MEM1".toList].map operandOf =
      [Loc.regC, .regB, .regA, .mem5, .mem4, .mem3, .mem2, .mem1].map (fun l => .loc l .upper)

/-- Decoding the tokens of a well-formed instruction gives it back, with every operand, spelling, sign and digit, whatever
follows in the stream (30_encoding.md R72, R73, R75; the spelling of names is 92_eei_decisions.md D5). -/
def Obligations.DecodeAfterEncode : Prop :=
  ∀ (i : Instr) (rest : List Token), i.WellFormed → decode (encode i ++ rest) = .instr i rest

/-- An instruction decoded from a stream of tokens is well-formed, and the tokens it was read from are its encoding
(30_encoding.md R72, R75). -/
def Obligations.DecodedInstructionIsWellFormed : Prop :=
  ∀ (ts : List Token) (i : Instr) (rest : List Token), (∀ t ∈ ts, Token.WellFormed t) → decode ts = .instr i rest →
    i.WellFormed ∧ ts = encode i ++ rest

/-- The three classes of operand tokens (30_encoding.md R75 to R78; 92_eei_decisions.md D5, D7, D8): a token is a location
operand exactly when it is one of the 16 names, a literal exactly when it matches `-?[0-9]+`, and "other" otherwise. -/
def Obligations.OperandTokenClasses : Prop :=
  ∀ t : Token,
    (∀ l sp, operandOf t = .loc l sp ↔ t = locName l sp) ∧
    (∀ (neg : Bool) (ds : List (Fin 10)), operandOf t = .lit neg ds ↔ ds ≠ [] ∧ t = (if neg then ['-'] else []) ++ ds.map digitChar) ∧
    ((∀ l sp, t ≠ locName l sp) → (∀ (neg : Bool) (ds : List (Fin 10)), ds ≠ [] → t ≠ (if neg then ['-'] else []) ++ ds.map digitChar) →
      operandOf t = .other t)

/-- A literal is read in base 10; leading zeros count nothing and `-0` is 0 (30_encoding.md R77, R90;
92_eei_decisions.md D7). -/
def Obligations.LiteralIsDecimal : Prop :=
  ∀ (ds : List (Fin 10)) (d : Fin 10),
    literalValue false [] = 0 ∧
    literalValue false (ds ++ [d]) = 10 * literalValue false ds + d.val ∧
    literalValue true ds = -literalValue false ds ∧
    (∀ neg, literalValue neg (0 :: ds) = literalValue neg ds)

/-- A word placed with withFetchWord is what the next step decodes and runs. The word layout is the model's (log 5). -/
def Obligations.PlacedWordRunsNext : Prop :=
  ∀ (s : State) (nbits w : Nat) (i : Instr), decodeTableWord nbits w = some i →
    step (s.withFetchWord nbits w) = exec i (nextInput (s.withFetchWord nbits w))

/-- The 23 codes the source gives (30_encoding.md R85), whatever the configuration. -/
def Obligations.GivenOpcodeCodes : Prop :=
  ∀ cfg : Config,
    [Mnemonic.zero, .imm, .add, .sub, .mult, .mulths, .multhsu, .div, .divs, .divuns, .storebyte, .loadbyte, .loadbyteun,
      .setlessthan, .setlessthanun, .shiftleftlog, .shiftrightlog, .shiftrigharth, .shiftleftarth, .loada, .jump, .stall,
      .reset].map (codeOf cfg) =
    [0b000000#6, 0b000001#6, 0b000010#6, 0b000011#6, 0b000100#6, 0b000101#6, 0b000110#6, 0b000111#6, 0b001000#6,
      0b001001#6, 0b010000#6, 0b010011#6, 0b010100#6, 0b011000#6, 0b011001#6, 0b011100#6, 0b011100#6, 0b011100#6,
      0b011101#6, 0b011111#6, 0b110001#6, 0b111110#6, 0b111111#6]

/-! ### The cycle -/

/-- A step in mode Run is exec of the instruction that the tokens at pc decode to, at the state whose host input for this
step is consumed (40_engine.md R111, R113; the input list is the model's, log 3). -/
def Obligations.StepRunsDecodedInstruction : Prop :=
  ∀ (s : State) (i : Instr) (rest : List Token), s.mode = .run → decode (s.program.drop s.pc) = .instr i rest →
    step s = exec i { s with ackInput := s.ackInput.tail }

/-- A token at pc that is no mnemonic is passed over, and no other state of the spec changes (30_encoding.md R82;
40_engine.md R114; 92_eei_decisions.md D22). That the step consumes its host input is the model's choice (log 3). -/
def Obligations.UnmatchedTokenIsSkipped : Prop :=
  ∀ (s : State) (t : Token), s.mode = .run → s.program[s.pc]? = some t → (∀ m : Mnemonic, t ≠ m.token) →
    step s = .next { s with pc := s.pc + 1, ackInput := s.ackInput.tail }

/-- A mnemonic followed by fewer tokens than its arity ends the run with TruncatedInstruction, which reports how many tokens
did follow; State Vector and pc are as before (40_engine.md R111; 60_exceptions.md R281, R284, R286; 92_eei_decisions.md
D25, D26). That the step consumes its host input is the model's choice (log 3). -/
def Obligations.CutOffInstructionIsTruncated : Prop :=
  ∀ (s : State) (m : Mnemonic), s.mode = .run → s.program[s.pc]? = some m.token →
    s.program.length - 1 - s.pc < m.arity →
    step s = .next (afterError { s with ackInput := s.ackInput.tail } m.token
      (.truncatedInstruction (s.program.length - 1 - s.pc)))

/-- At the end of the stream the run is Done and no other state of the spec but the trace's final status is written
(40_engine.md R111, R127; 92_eei_decisions.md D32). That the step consumes its host input is the model's choice (log 3). -/
def Obligations.EndOfStreamIsDone : Prop :=
  ∀ s : State, s.mode = .run → s.pc = s.program.length →
    step s = .next { s with mode := .done, trace := s.trace ++ [.done], ackInput := s.ackInput.tail }

/-- A step is never refused, and stops with a fault exactly when pc is past the end of the stream, which is the model's
choice (log 8; 10_state.md R33; 93_implementation_defined.md I12). -/
def Obligations.StepStopsOnlyPastTheEnd : Prop :=
  (∀ s r, step s ≠ .refused r) ∧
  (∀ s f, step s = .fault f ↔ f = .fetchPastEnd ∧ s.mode = .run ∧ s.program.length < s.pc)

/-- An acknowledgment ends the pause and nothing else; without one the engine goes on waiting; one that arrives in mode Run
has no effect (40_engine.md R116, R124, R126; 92_eei_decisions.md D24, D35; one input entry a step is the model's, log 3). -/
def Obligations.AcknowledgmentEndsThePauseOnly : Prop :=
  ∀ (s : State) (rest : List Bool),
    (s.mode = .awaitAck → s.ackInput = true :: rest → step s = .next { s with mode := .run, ackInput := rest }) ∧
    (s.mode = .awaitAck → s.ackInput = false :: rest → step s = .next { s with ackInput := rest }) ∧
    (s.mode = .awaitAck → s.ackInput = [] → step s = .next s) ∧
    (s.mode = .run → step { s with ackInput := true :: rest } = step { s with ackInput := false :: rest })

/-- A run that is Done or Faulted stays as it is for ever, its report kept (10_state.md R37; 60_exceptions.md R288). That step
answers the same state is the model's way to say that no step exists (log 4). -/
def Obligations.EndedRunStaysEnded : Prop :=
  ∀ (k : Nat) (s : State), s.mode.terminal = true → runSteps k s = .next s

/-- 70_reset_and_hazards.md R310: every piece of state at run creation, for any raw stream, any configuration a run may be
given (30_encoding.md R87) and any host. -/
def Obligations.RunCreationValues : Prop :=
  ∀ (cfg : Config) (ok : cfg.WellFormed) (raw : List Item) (acks : List Bool), ∀ s ∈ [State.reset, createRun cfg ok raw acks],
    (∀ l, readLoc l s.x = 0) ∧ s.x.opcode = 0b111111#6 ∧ s.x.reserved = 0 ∧ s.x.flags = 0 ∧
    s.pc = 0 ∧ s.mode = .run ∧ s.trace = []

/-! ### The instruction rules -/

/-- 41_markers.md R140, R141; 46_control.md R240, R241: ZERO, IMM, JUMP and STALL take no operand, whatever follows, and
leave every field as it was but the Opcode field; pc advances by 1, one record is rendered, and in step mode the engine
pauses. STALL in an operand position is an unknown operand. (The premise is the invariant's: the render policy accepts the
State Vector.) -/
def Obligations.MarkersWriteTheOpcodeFieldOnly : Prop :=
  (∀ p ∈ [("ZERO".toList, Instr.zero, 0b000000#6), ("IMM".toList, .imm, 0b000001#6), ("JUMP".toList, .jump, 0b110001#6),
      ("STALL".toList, .stall, 0b111110#6)],
    (∀ rest, decode (p.1 :: rest) = .instr p.2.1 rest) ∧
    ∀ s, Renderable s.cfg s.x → ∃ t, exec p.2.1 s = .next t ∧ t.x = { s.x with opcode := p.2.2 } ∧ t.pc = s.pc + 1 ∧
      t.trace = s.trace ++ [.render (renderRecord t.x)] ∧ t.mode = if s.cfg.stepMode then .awaitAck else s.mode) ∧
  ∀ k x, resolve k (operandOf "STALL".toList) x = .error (.unknownOperand "STALL".toList k)

/-- The four markers in every state: what they commit, and RenderOverflow in a state the render policy does not accept
(41_markers.md R140, R141; 46_control.md R240, R241; 40_engine.md R110, R111, R120, R122, R124). -/
def Obligations.MarkerRules : Prop :=
  MarkerRule "ZERO".toList .zero (fun _ => 0b000000#6) ∧
  MarkerRule "IMM".toList .imm (fun _ => 0b000001#6) ∧
  MarkerRule "JUMP".toList .jump (fun _ => 0b110001#6) ∧
  MarkerRule "STALL".toList .stall (fun _ => 0b111110#6)

/-- ADD and SUB: the sum and the difference of the unsigned views (42_arithmetic.md R150, R151; their errors and policies
rest on 92_eei_decisions.md D8 to D11, D23 to D26). -/
def Obligations.AdditionAndSubtraction : Prop :=
  ThreeOperandRule "ADD".toList .add (fun _ => 0b000010#6) (fun _ => False) (fun a b => a.uv + b.uv) ∧
  ThreeOperandRule "SUB".toList .sub (fun _ => 0b000011#6) (fun _ => False) (fun a b => a.uv - b.uv)

/-- MULT: the low 32 bits of the product of the unsigned views. MULTHS and MULTHSU: the full products of the signed and the
unsigned views (42_arithmetic.md R152 to R154; 92_eei_decisions.md D13, D14). -/
def Obligations.Multiplications : Prop :=
  ThreeOperandRule "MULT".toList .mult (fun _ => 0b000100#6) (fun _ => False) (fun a b => (a.uv * b.uv) % 2 ^ 32) ∧
  ThreeOperandRule "MULTHS".toList .mulths (fun _ => 0b000101#6) (fun _ => False) (fun a b => a.sv * b.sv) ∧
  ThreeOperandRule "MULTHSU".toList .multhsu (fun _ => 0b000110#6) (fun _ => False) (fun a b => a.uv * b.uv)

/-- DIV, DIVS and DIVUNS: quotients rounded toward zero, or DivideByZero (42_arithmetic.md R155 to R157;
92_eei_decisions.md D15; the rounding is 93_implementation_defined.md G3, log 10). -/
def Obligations.Divisions : Prop :=
  ThreeOperandRule "DIV".toList .div (fun _ => 0b000111#6) (fun b => b.uv = 0) (fun a b => a.uv.tdiv b.uv) ∧
  ThreeOperandRule "DIVS".toList .divs (fun _ => 0b001000#6) (fun b => b.sv = 0) (fun a b => a.sv.tdiv b.sv) ∧
  ThreeOperandRule "DIVUNS".toList .divuns (fun _ => 0b001001#6) (fun b => b.uv = 0) (fun a b => a.uv.tdiv b.uv)

/-- STOREBYTE, LOADBYTE and LOADBYTEUN: the whole value moves (43_load_store.md R170 to R172; 92_eei_decisions.md D17). -/
def Obligations.ByteNamedMoves : Prop :=
  TwoOperandRule "STOREBYTE".toList .storebyte (fun _ => 0b010000#6) (fun _ v => v.uv) ∧
  TwoOperandRule "LOADBYTE".toList .loadbyte (fun _ => 0b010011#6) (fun _ v => v.uv) ∧
  TwoOperandRule "LOADBYTEUN".toList .loadbyteun (fun _ => 0b010100#6) (fun _ v => v.uv)

/-- STOREHALF, STOREWORD, LOADHALF, LOADHALFUN and LOADWORD subtract, under whatever codes the configuration gives them
(43_load_store.md R173 to R177; 92_eei_decisions.md D17, D20). -/
def Obligations.HalfAndWordNamedSubtractions : Prop :=
  ThreeOperandRule "STOREHALF".toList .storehalf (fun c => c.opc.storehalf) (fun _ => False) (fun a b => a.uv - b.uv) ∧
  ThreeOperandRule "STOREWORD".toList .storeword (fun c => c.opc.storeword) (fun _ => False) (fun a b => a.uv - b.uv) ∧
  ThreeOperandRule "LOADHALF".toList .loadhalf (fun c => c.opc.loadhalf) (fun _ => False) (fun a b => a.uv - b.uv) ∧
  ThreeOperandRule "LOADHALFUN".toList .loadhalfun (fun c => c.opc.loadhalfun) (fun _ => False) (fun a b => a.uv - b.uv) ∧
  ThreeOperandRule "LOADWORD".toList .loadword (fun c => c.opc.loadword) (fun _ => False) (fun a b => a.uv - b.uv)

/-- SETLESSTHAN and SETLESSTHANUN: the difference of the signed or unsigned views (44_compare_shift.md R190, R191;
92_eei_decisions.md D16). -/
def Obligations.Compares : Prop :=
  ThreeOperandRule "SETLESSTHAN".toList .setlessthan (fun _ => 0b011000#6) (fun _ => False) (fun a b => a.sv - b.sv) ∧
  ThreeOperandRule "SETLESSTHANUN".toList .setlessthanun (fun _ => 0b011001#6) (fun _ => False) (fun a b => a.uv - b.uv)

/-- The four shifts by one on the pattern `u` and width `w` of ShiftSrc, in the formulas of 44_compare_shift.md R192 to R195
(40_engine.md R106; 92_eei_decisions.md D18). -/
def Obligations.Shifts : Prop :=
  TwoOperandRule "SHIFTLEFTLOG".toList .shiftleftlog (fun _ => 0b011100#6)
    (fun wd v => (2 * ((shiftSrc wd v).1 : Int)) % 2 ^ (shiftSrc wd v).2) ∧
  TwoOperandRule "SHIFTRIGHTLOG".toList .shiftrightlog (fun _ => 0b011100#6) (fun wd v => ((shiftSrc wd v).1 : Int) / 2) ∧
  TwoOperandRule "SHIFTRIGHARTH".toList .shiftrigharth (fun _ => 0b011100#6)
    (fun wd v => ((shiftSrc wd v).1 : Int) / 2 +
      ((((shiftSrc wd v).1.testBit ((shiftSrc wd v).2 - 1)).toNat : Nat) : Int) * 2 ^ ((shiftSrc wd v).2 - 1)) ∧
  TwoOperandRule "SHIFTLEFTARTH".toList .shiftleftarth (fun _ => 0b011101#6) (fun wd v => 2 * ((shiftSrc wd v).1 : Int))

/-- AIN, BIN, CIN and LOADA, LOADB, LOADC: Register A, B or C receives the source (45_transfer.md R210 to R212, R216 to R218;
92_eei_decisions.md D20). -/
def Obligations.RegisterInTransfers : Prop :=
  InboundRule "AIN".toList .ain (fun c => c.opc.ain) .regA ∧
  InboundRule "BIN".toList .bin (fun c => c.opc.bin) .regB ∧
  InboundRule "CIN".toList .cin (fun c => c.opc.cin) .regC ∧
  InboundRule "LOADA".toList .loada (fun _ => 0b011111#6) .regA ∧
  InboundRule "LOADB".toList .loadb (fun c => c.opc.loadb) .regB ∧
  InboundRule "LOADC".toList .loadc (fun c => c.opc.loadc) .regC

/-- AOUT, BOUT and COUT: the destination receives Register A, B or C (45_transfer.md R213 to R215; 92_eei_decisions.md D20). -/
def Obligations.RegisterOutTransfers : Prop :=
  OutboundRule "AOUT".toList .aout (fun c => c.opc.aout) .regA ∧
  OutboundRule "BOUT".toList .bout (fun c => c.opc.bout) .regB ∧
  OutboundRule "COUT".toList .cout (fun c => c.opc.cout) .regC

/-- MEM1IN to MEM5IN: the memory slot receives the source (45_transfer.md R219 to R223; 92_eei_decisions.md D19, D20). -/
def Obligations.MemoryInTransfers : Prop :=
  InboundRule "MEM1IN".toList .mem1in (fun c => c.opc.mem1in) .mem1 ∧
  InboundRule "MEM2IN".toList .mem2in (fun c => c.opc.mem2in) .mem2 ∧
  InboundRule "MEM3IN".toList .mem3in (fun c => c.opc.mem3in) .mem3 ∧
  InboundRule "MEM4IN".toList .mem4in (fun c => c.opc.mem4in) .mem4 ∧
  InboundRule "MEM5IN".toList .mem5in (fun c => c.opc.mem5in) .mem5

/-- MEM1OUT to MEM5OUT: the destination receives the memory slot (45_transfer.md R224 to R228;
92_eei_decisions.md D19, D20). -/
def Obligations.MemoryOutTransfers : Prop :=
  OutboundRule "MEM1OUT".toList .mem1out (fun c => c.opc.mem1out) .mem1 ∧
  OutboundRule "MEM2OUT".toList .mem2out (fun c => c.opc.mem2out) .mem2 ∧
  OutboundRule "MEM3OUT".toList .mem3out (fun c => c.opc.mem3out) .mem3 ∧
  OutboundRule "MEM4OUT".toList .mem4out (fun c => c.opc.mem4out) .mem4 ∧
  OutboundRule "MEM5OUT".toList .mem5out (fun c => c.opc.mem5out) .mem5

/-- A value copied out of a memory slot fits every location, so that WidthViolation cannot occur: the copy arrives whole in
every state the render policy accepts (45_transfer.md R224 to R228). -/
def Obligations.MemoryOutNeverViolatesWidth : Prop :=
  ∀ p ∈ [(Instr.mem1out, Loc.mem1), (.mem2out, .mem2), (.mem3out, .mem3), (.mem4out, .mem4), (.mem5out, .mem5)],
    ∀ d sp s, Renderable s.cfg s.x →
      ∃ t, exec (p.1 (.loc d sp)) s = .next t ∧ readLoc d t.x = readLoc p.2 s.x ∧
        t.mode = if s.cfg.stepMode then .awaitAck else s.mode

/-- RESET restores the run-creation values of all 11 fields, whatever the state, and touches nothing else but what every
executed instruction does (46_control.md R242; 70_reset_and_hazards.md R313; 92_eei_decisions.md D33). -/
def Obligations.ResetRestoresTheStateVector : Prop :=
  ∀ s : State, exec .reset s = .next (afterCommit s 0 StateVector.initial)

/-- 30_encoding.md R92: LOADA, LOADB and LOADC have codes of their own and the same effect as AIN, BIN and CIN: on a source
both commit, the two State Vectors differ in the Opcode field at most, and pc and mode agree. -/
def Obligations.LoadsAreAliasesOfTheInTransfers : Prop :=
  ∀ p ∈ [(Instr.loada, Instr.ain), (.loadb, .bin), (.loadc, .cin)], ∀ src s t,
    exec (p.2 src) s = .next t → Safe t →
      ∃ u, exec (p.1 src) s = .next u ∧ u.x = { t.x with opcode := u.x.opcode } ∧ u.pc = t.pc ∧ u.mode = t.mode ∧
        u.x.opcode = codeOf s.cfg (p.1 src).mnemonic

/-! ### Operands, Fit and the renderer -/

/-- Resolution (40_engine.md R100 to R102, R104; 92_eei_decisions.md D8): a location gives its slot's value before the
instruction, a literal its integer, anything else UnknownOperand; a destination is a location name only. ShiftSrc gives a
location's pattern at its own width, and a literal fitted to the destination's (40_engine.md R106; 92_eei_decisions.md D18).
The slots, the widths and the fields of the locations are those of 10_state.md R20 and R26. -/
def Obligations.OperandResolution : Prop :=
  ∀ (x : StateVector) (k : Nat),
    (∀ l sp, resolve k (.loc l sp) x = .ok (.loc l (readLoc l x)) ∧ destOf (.loc l sp) = .ok l) ∧
    (∀ neg ds, resolve k (.lit neg ds) x = .ok (.lit (literalValue neg ds)) ∧
      destOf (.lit neg ds) = .error (.unknownOperand (Operand.lit neg ds).text 1)) ∧
    (∀ t, resolve k (.other t) x = .error (.unknownOperand t k) ∧ destOf (.other t) = .error (.unknownOperand t 1)) ∧
    (∀ l u, (Resolved.loc l u).uv = u) ∧ (∀ n, (Resolved.lit n).uv = n) ∧
    (∀ wd l u, shiftSrc wd (.loc l u) = (u, widthOf l)) ∧
    (∀ wd n, shiftSrc wd (.lit n) = ((n % 2 ^ wd).toNat, wd)) ∧
    [Loc.regC, .regB, .regA, .mem5, .mem4, .mem3, .mem2, .mem1].map slotOf = [0, 1, 2, 3, 4, 5, 6, 7] ∧
    [Loc.regC, .regB, .regA, .mem5, .mem4, .mem3, .mem2, .mem1].map widthOf = [42, 42, 42, 12, 12, 12, 12, 12] ∧
    [Loc.regC, .regB, .regA, .mem5, .mem4, .mem3, .mem2, .mem1].map (fun l => readLoc l x) =
      [x.regC.toNat, x.regB.toNat, x.regA.toNat, x.mem5.toNat, x.mem4.toNat, x.mem3.toNat, x.mem2.toNat, x.mem1.toNat]

/-- The signed view is the two's-complement reading of the slot's own width: the one integer of the signed range that is
congruent to the pattern; a literal is its own value (40_engine.md R103; 93_implementation_defined.md G1, log 9). -/
def Obligations.SignedViewIsTwosComplement : Prop :=
  (∀ (l : Loc) (x : StateVector),
    -(2 ^ (widthOf l - 1) : Int) ≤ (Resolved.loc l (readLoc l x)).sv ∧
    (Resolved.loc l (readLoc l x)).sv < 2 ^ (widthOf l - 1) ∧
    (Resolved.loc l (readLoc l x)).sv % 2 ^ widthOf l = readLoc l x) ∧
  ∀ n, (Resolved.lit n).sv = n

/-- A stored result is the result modulo 2^w, which is the result itself when it is in range; every other location keeps its
value (40_engine.md R108, R109; 92_eei_decisions.md D11). -/
def Obligations.StoredResultIsFitted : Prop :=
  ∀ (x : StateVector) (d : Loc) (r : Int) (c : OpcodeWord),
    ((readLoc d (stored x d r c) : Nat) : Int) = r % 2 ^ widthOf d ∧
    (0 ≤ r → r < 2 ^ widthOf d → ((readLoc d (stored x d r c) : Nat) : Int) = r) ∧
    (∀ l, l ≠ d → readLoc l (stored x d r c) = readLoc l x) ∧
    (stored x d r c).opcode = c ∧ (stored x d r c).reserved = x.reserved ∧ (stored x d r c).flags = x.flags

/-- The shifts as bit-vector shifts: on a pattern of width w they are the shifts by one of a w-bit vector, the arithmetic
right shift replicating the sign bit (44_compare_shift.md R192 to R194; 92_eei_decisions.md D18). -/
def Obligations.ShiftsAreBitVectorShifts : Prop :=
  ∀ (w : Nat) (v : BitVec w), 0 < w →
    shiftLeftLogical (v.toNat, w) = (v <<< 1).toNat ∧
    shiftRightLogical (v.toNat, w) = (v >>> 1).toNat ∧
    shiftRightArithmetic (v.toNat, w) = (v.sshiftRight 1).toNat

/-- A rendered field is `0x` and exactly 8 digits of the renderer's alphabet, and a record has the 11 fields in slot order
(40_engine.md R120, R121; the letter case is 92_eei_decisions.md D23, log 11). -/
def Obligations.RenderedFormat : Prop :=
  (∀ v, (hexWord v).length = 10 ∧ (hexWord v).take 2 = ['0', 'x'] ∧
    ∀ c ∈ (hexWord v).drop 2, c ∈ "0123456789abcdef".toList) ∧
  ∀ x, renderRecord x = [hexWord x.regC.toNat, hexWord x.regB.toNat, hexWord x.regA.toNat, hexWord x.mem5.toNat,
    hexWord x.mem4.toNat, hexWord x.mem3.toNat, hexWord x.mem2.toNat, hexWord x.mem1.toNat, hexWord x.opcode.toNat,
    hexWord x.reserved.toNat, hexWord x.flags.toNat]

/-- Reading a rendered field back gives its value modulo 2^32, and the value itself below 2^32
(40_engine.md R121, R123; 92_eei_decisions.md D23). -/
def Obligations.RenderRoundTrip : Prop :=
  ∀ v, readHexWord (hexWord v) = some (v % 2 ^ 32) ∧ (v < 2 ^ 32 → readHexWord (hexWord v) = some v)

/-! ### Every instruction -/

/-- An executed instruction changes no location but its target, RESET apart (frame of 30_encoding.md R73 and of every
instruction rule; 20_memory.md R52, R57): every register and memory slot other than the one its `dest` names, or its implicit
one, reads as before; the program, the configuration and the host's input are unchanged. -/
def Obligations.OnlyTheTargetLocationChanges : Prop :=
  ∀ (i : Instr) (s t : State), exec i s = .next t →
    (i ≠ .reset → ∀ l, targetOf? i ≠ some l → readLoc l t.x = readLoc l s.x) ∧
    t.program = s.program ∧ t.cfg = s.cfg ∧ t.ackInput = s.ackInput

/-- 10_state.md R31: no instruction writes any flag; nor the reserved field (R29). RESET gives both the value 0. -/
def Obligations.NoInstructionWritesFlags : Prop :=
  ∀ (i : Instr) (s t : State), exec i s = .next t →
    (i ≠ .reset → t.x.flags = s.x.flags ∧ t.x.reserved = s.x.reserved) ∧
    (i = .reset → t.x.flags = 0 ∧ t.x.reserved = 0)

/-- Every instruction answers a next state: it commits, with its code in the Opcode field and pc past its operands, or it
takes an error of code 1 to 3 with nothing written, neither a location nor the Opcode field nor pc
(40_engine.md R109, R110, R112; 60_exceptions.md R284; 92_eei_decisions.md D10, D26). -/
def Obligations.ErrorsArePrecise : Prop :=
  ∀ (i : Instr) (s : State), ∃ t, exec i s = .next t ∧
    ((t.x.opcode = codeOf s.cfg i.mnemonic ∧ t.pc = s.pc + (1 + i.mnemonic.arity)) ∨
      ∃ e : CoreError, e.code ≤ 3 ∧ t = afterError s i.mnemonic.token e)

/-- 40_engine.md R112: an executed instruction of arity n advances pc by 1 + n, and no step moves pc in any other way than
that, by 1 over a skipped token, or not at all. -/
def Obligations.PcAdvancesPastTheInstruction : Prop :=
  (∀ (i : Instr) (s t : State), exec i s = .next t → Safe t → t.pc = s.pc + (1 + i.mnemonic.arity)) ∧
  ∀ s t, step s = .next t → t.pc = s.pc ∨ t.pc = s.pc + 1 ∨
    ∃ m : Mnemonic, s.program[s.pc]? = some m.token ∧ t.pc = s.pc + (1 + m.arity)

/-- An instruction that ends in no error emits exactly one render record, of the State Vector it leaves, and pauses exactly in
step mode; one that ends in an error adds the report to the trace and no record
(40_engine.md R120, R124, R125; 60_exceptions.md R284; 92_eei_decisions.md D24). -/
def Obligations.OneRenderRecordPerInstruction : Prop :=
  ∀ (i : Instr) (s t : State), exec i s = .next t →
    (t.trace = s.trace ++ [.render (renderRecord t.x)] ∧ t.mode = if s.cfg.stepMode then .awaitAck else s.mode) ∨
    (∃ r, t.mode = .faulted r ∧ t.trace = s.trace ++ [.fault r] ∧ r.index = s.pc ∧ r.mnemonic = i.mnemonic.token)

/-- An instruction of arity 0 raises no error in any state that meets the invariant (60_exceptions.md R281). -/
def Obligations.ArityZeroRaisesNoError : Prop :=
  ∀ (i : Instr) (s : State), i.mnemonic.arity = 0 → MachineInv s → s.mode = .run →
    ∃ t, exec i s = .next t ∧ Safe t

/-- Under the default policies only errors 1, 2 and 4 can occur, and the codes of the five errors are those of
60_exceptions.md R281 (92_eei_decisions.md D25). -/
def Obligations.DefaultPoliciesRaiseThreeErrors : Prop :=
  (∀ s t r, s.mode = .run → s.cfg.overflow = .truncate → s.cfg.render = .low32 → step s = .next t →
    t.mode = .faulted r → r.error.code = 1 ∨ r.error.code = 2 ∨ r.error.code = 4) ∧
  ∀ t k d n o z, [CoreError.unknownOperand t k, .divideByZero t, .widthViolation k d z, .truncatedInstruction n,
    .renderOverflow n o].map CoreError.code = [1, 2, 3, 4, 5]

/-! ### The machine -/

/-- The invariant holds at reset and at every run creation (10_state.md R38; 70_reset_and_hazards.md R310; 30_encoding.md
R87). That reset carries the reference codes is the model's choice (log 1). -/
def Obligations.InvariantAtRunCreation : Prop :=
  MachineInv State.reset ∧ ∀ cfg ok raw acks, MachineInv (createRun cfg ok raw acks)

/-- Every step keeps the invariant: the constraints on the codes (30_encoding.md R87), pc within the stream, the reserved and Flags fields 0, a known Opcode code, the form of
the trace and its last record, the render policy's bound, the report's index and mnemonic (10_state.md R28 to R30, R33, R36;
40_engine.md R122, R124, R127; 60_exceptions.md R284, R286). -/
def Obligations.StepKeepsInvariant : Prop :=
  ∀ s t, MachineInv s → step s = .next t → MachineInv t

/-- No step changes the program or the configuration (10_state.md R34, R35; 20_memory.md R62), and the trace only grows
(R36). -/
def Obligations.ProgramAndConfigurationAreFixed : Prop :=
  ∀ s t, step s = .next t → t.program = s.program ∧ t.cfg = s.cfg ∧ s.trace <+: t.trace

/-- No instruction reads the Opcode, reserved or Flags field or the trace: two states that differ in them at most take steps
to two states that differ in them at most (10_state.md R27 to R30; 30_encoding.md R84; 60_exceptions.md R290). The renderer
does read the three fields (10_state.md R28 to R30): the traces, which hold its records, are not compared. -/
def Obligations.NoInstructionReadsControlFields : Prop :=
  ∀ s t, SameButControl s t →
    (∀ s', step s = .next s' → ∃ t', step t = .next t' ∧ SameButControl s' t') ∧
    (∀ f, step s = .fault f → step t = .fault f)

/-- Without step mode a run ends: from any pc within the stream, one step more than the tokens left lead to Done or Faulted
(40_engine.md R112, R116, R127). -/
def Obligations.RunEndsWithinTheStream : Prop :=
  ∀ s, s.cfg.stepMode = false → s.mode = .run → s.pc ≤ s.program.length →
    ∃ t, runSteps (s.program.length - s.pc + 1) s = .next t ∧ t.mode.terminal = true

/-! ### The annotator. The algorithm is the spec's own (92_eei_decisions.md D27, log 12). -/

/-- The reference example of 47_hazard_annotator.md R268. -/
def Obligations.AnnotatorReferenceExample : Prop :=
  annotate 2 (itemsOfText "ADD RegA 3 4\nADD RegB RegA 1\nSUB RegC RegB RegA".toList) =
    itemTokens (itemsOfText "ADD RegA 3 4 STALL STALL ADD RegB RegA 1 SUB RegC RegB RegA".toList)

/-- A candidate triggers exactly when some offset within its window matches: the order of the probes is unobservable
(47_hazard_annotator.md R254 to R257). -/
def Obligations.ProbeOrderIsUnobservable : Prop :=
  ∀ (A : List Item) (b : Int) (j : Nat),
    hit A b j = true ↔ ∃ k : Nat, 2 ≤ k ∧ (k : Int) ≤ min 6 ((j : Int) - b - 1) ∧
      ∃ t, A[j - k]? = some (.tok t) ∧ A[j + 1]? = some (.tok t)

/-- The annotator's iterations are enough: more of them change nothing (47_hazard_annotator.md R264). -/
def Obligations.ScanCompletes : Prop :=
  ∀ (minDist : Nat) (raw : List Item) (more : Nat),
    scan minDist (3 * raw.length + more) raw (-1) 0 = scan minDist (3 * raw.length) raw (-1) 0

/-- The annotator is the scan of 47_hazard_annotator.md R252 to R260 over the whole raw stream: after `n` triggers its tokens
form the annotated stream, which is the raw stream's tokens in their order with an adjacent pair of STALL tokens directly
after `n` of the markers, one pair a trigger (R258, R259, R260, R264). -/
def Obligations.AnnotatorKeepsTheTokens : Prop :=
  ∀ (minDist : Nat) (raw : List Item), ∃ (n : Nat) (B : List Item),
    Scanned minDist raw (-1) 0 n B ∧ annotate minDist raw = itemTokens B ∧
    StallPairs raw n (annotate minDist raw) ∧
    n ≤ raw.count .lb ∧ (annotate minDist raw).length = (itemTokens raw).length + 2 * n ∧
    (itemTokens raw).Sublist (annotate minDist raw) ∧
    (annotate minDist raw).filter (· ≠ "STALL".toList) = (itemTokens raw).filter (· ≠ "STALL".toList)

/-- Annotating an annotated stream changes nothing (47_hazard_annotator.md R265). -/
def Obligations.AnnotatorIsIdempotent : Prop :=
  ∀ (minDist minDist' : Nat) (raw : List Item),
    annotate minDist' ((annotate minDist raw).map .tok) = annotate minDist raw

/-- When every line holds exactly one whole instruction, the annotator only inserts STALL tokens at dispatch positions
(47_hazard_annotator.md R262). -/
def Obligations.StallsLandAtDispatchPositions : Prop :=
  ∀ (minDist : Nat) (lines : List (List Token)), (∀ line ∈ lines, WholeLine line) →
    StallExpansion lines.flatten (annotate minDist (rawOfLines lines))

/-- STALL tokens at dispatch positions change no location: where a run without them ends, the run with them ends too, with
the same locations, and with the same error if one ended it, at another index only (47_hazard_annotator.md R266;
70_reset_and_hazards.md R318). Both runs are without step mode. -/
def Obligations.StallsChangeNoLocation : Prop :=
  ∀ (s t s' : State) (k : Nat), s.cfg.stepMode = false → MachineInv s → MachineInv t → s.mode = .run → t.mode = .run →
    t.cfg = s.cfg → (∀ l, readLoc l t.x = readLoc l s.x) →
    StallExpansion (s.program.drop s.pc) (t.program.drop t.pc) →
    runSteps k s = .next s' → s'.mode.terminal = true →
    ∃ k' t', runSteps k' t = .next t' ∧ (∀ l, readLoc l t'.x = readLoc l s'.x) ∧
      (s'.mode = .done → t'.mode = .done) ∧
      ∀ r, s'.mode = .faulted r → ∃ index, t'.mode = .faulted { r with index := index }

/-! ### More of the annotator, the tables and the codes -/

/-- One iteration of the scan: it inserts two STALL tokens after the marker at `j` and restarts there exactly when `j`
triggers, passes on unchanged otherwise, and ends at the end of the items (47_hazard_annotator.md R252 to R259). -/
def Obligations.ScanInsertsExactlyAtTriggers : Prop :=
  ∀ (minDist fuel : Nat) (A : List Item) (b : Int) (j : Nat),
    (Triggers minDist A b j →
      scan minDist (fuel + 1) A b j = scan minDist fuel (withStalls A j) j (j + 1)) ∧
    (j < A.length → ¬ Triggers minDist A b j → scan minDist (fuel + 1) A b j = scan minDist fuel A b (j + 1)) ∧
    (A.length ≤ j → scan minDist fuel A b j = A)

/-- The codes of a run tell its transfers apart, family by family: AIN, BIN, CIN; AOUT, BOUT, COUT; LOADA, LOADB, LOADC; the
ten memory transfers (30_encoding.md R87). -/
def Obligations.TransferCodesAreDistinct : Prop :=
  ∀ s, MachineInv s →
    ∀ family ∈ [[Mnemonic.ain, .bin, .cin], [.aout, .bout, .cout], [.loada, .loadb, .loadc],
        [.mem1in, .mem2in, .mem3in, .mem4in, .mem5in, .mem1out, .mem2out, .mem3out, .mem4out, .mem5out]],
      ∀ m ∈ family, ∀ n ∈ family, codeOf s.cfg m = codeOf s.cfg n → m = n

/-- The mnemonic table (30_encoding.md R73, R81): each of the 46 mnemonics takes the operand tokens of its format, whatever they
are, in their order, and leaves the rest (R72, R74). -/
def Obligations.MnemonicTableDecodes : Prop :=
  ∀ (a b c : Token) (rest : List Token),
    (∀ p ∈ [("ZERO".toList, Instr.zero), ("IMM".toList, .imm), ("JUMP".toList, .jump), ("STALL".toList, .stall),
        ("RESET".toList, .reset)], decode (p.1 :: rest) = .instr p.2 rest) ∧
    (∀ p ∈ [("AIN".toList, Instr.ain), ("BIN".toList, .bin), ("CIN".toList, .cin), ("AOUT".toList, .aout),
        ("BOUT".toList, .bout), ("COUT".toList, .cout), ("LOADA".toList, .loada), ("LOADB".toList, .loadb),
        ("LOADC".toList, .loadc), ("MEM1IN".toList, .mem1in), ("MEM2IN".toList, .mem2in), ("MEM3IN".toList, .mem3in),
        ("MEM4IN".toList, .mem4in), ("MEM5IN".toList, .mem5in), ("MEM1OUT".toList, .mem1out),
        ("MEM2OUT".toList, .mem2out), ("MEM3OUT".toList, .mem3out), ("MEM4OUT".toList, .mem4out),
        ("MEM5OUT".toList, .mem5out)], decode (p.1 :: a :: rest) = .instr (p.2 (operandOf a)) rest) ∧
    (∀ p ∈ [("STOREBYTE".toList, Instr.storebyte), ("LOADBYTE".toList, .loadbyte), ("LOADBYTEUN".toList, .loadbyteun),
        ("SHIFTLEFTLOG".toList, .shiftleftlog), ("SHIFTRIGHTLOG".toList, .shiftrightlog),
        ("SHIFTRIGHARTH".toList, .shiftrigharth), ("SHIFTLEFTARTH".toList, .shiftleftarth)],
      decode (p.1 :: a :: b :: rest) = .instr (p.2 (operandOf a) (operandOf b)) rest) ∧
    (∀ p ∈ [("ADD".toList, Instr.add), ("SUB".toList, .sub), ("MULT".toList, .mult), ("MULTHS".toList, .mulths),
        ("MULTHSU".toList, .multhsu), ("DIV".toList, .div), ("DIVS".toList, .divs), ("DIVUNS".toList, .divuns),
        ("STOREHALF".toList, .storehalf), ("STOREWORD".toList, .storeword), ("LOADHALF".toList, .loadhalf),
        ("LOADHALFUN".toList, .loadhalfun), ("LOADWORD".toList, .loadword), ("SETLESSTHAN".toList, .setlessthan),
        ("SETLESSTHANUN".toList, .setlessthanun)],
      decode (p.1 :: a :: b :: c :: rest) = .instr (p.2 (operandOf a) (operandOf b) (operandOf c)) rest)
end

