-- ==== Sys2Proof/Laws/State.lean ====
section
/-! SUPPORT. One lemma per field per update of State, each true by unfolding once. -/

namespace Sys2Proof.Machine

@[simp] theorem takeError_x (m : Mnemonic) (e : CoreError) (k : Nat) (s : State) : (takeError m e k s).x = s.x := rfl
@[simp] theorem takeError_pc (m : Mnemonic) (e : CoreError) (k : Nat) (s : State) : (takeError m e k s).pc = s.pc := rfl
@[simp] theorem takeError_mode (m : Mnemonic) (e : CoreError) (k : Nat) (s : State) : (takeError m e k s).mode = .faulted ⟨e, k, m.token⟩ := rfl
@[simp] theorem takeError_trace (m : Mnemonic) (e : CoreError) (k : Nat) (s : State) : (takeError m e k s).trace = s.trace ++ [.fault ⟨e, k, m.token⟩] := rfl
@[simp] theorem takeError_program (m : Mnemonic) (e : CoreError) (k : Nat) (s : State) : (takeError m e k s).program = s.program := rfl
@[simp] theorem takeError_cfg (m : Mnemonic) (e : CoreError) (k : Nat) (s : State) : (takeError m e k s).cfg = s.cfg := rfl
@[simp] theorem takeError_ackInput (m : Mnemonic) (e : CoreError) (k : Nat) (s : State) : (takeError m e k s).ackInput = s.ackInput := rfl

@[simp] theorem skipToken_x (s : State) : (skipToken s).x = s.x := rfl
@[simp] theorem skipToken_pc (s : State) : (skipToken s).pc = s.pc + 1 := rfl
@[simp] theorem skipToken_mode (s : State) : (skipToken s).mode = s.mode := rfl
@[simp] theorem skipToken_trace (s : State) : (skipToken s).trace = s.trace := rfl
@[simp] theorem skipToken_program (s : State) : (skipToken s).program = s.program := rfl
@[simp] theorem skipToken_cfg (s : State) : (skipToken s).cfg = s.cfg := rfl
@[simp] theorem skipToken_ackInput (s : State) : (skipToken s).ackInput = s.ackInput := rfl

@[simp] theorem endRun_x (s : State) : (endRun s).x = s.x := rfl
@[simp] theorem endRun_pc (s : State) : (endRun s).pc = s.pc := rfl
@[simp] theorem endRun_mode (s : State) : (endRun s).mode = .done := rfl
@[simp] theorem endRun_trace (s : State) : (endRun s).trace = s.trace ++ [.done] := rfl
@[simp] theorem endRun_program (s : State) : (endRun s).program = s.program := rfl
@[simp] theorem endRun_cfg (s : State) : (endRun s).cfg = s.cfg := rfl
@[simp] theorem endRun_ackInput (s : State) : (endRun s).ackInput = s.ackInput := rfl

@[simp] theorem nextInput_x (s : State) : (nextInput s).x = s.x := rfl
@[simp] theorem nextInput_pc (s : State) : (nextInput s).pc = s.pc := rfl
@[simp] theorem nextInput_mode (s : State) : (nextInput s).mode = s.mode := rfl
@[simp] theorem nextInput_trace (s : State) : (nextInput s).trace = s.trace := rfl
@[simp] theorem nextInput_program (s : State) : (nextInput s).program = s.program := rfl
@[simp] theorem nextInput_cfg (s : State) : (nextInput s).cfg = s.cfg := rfl
@[simp] theorem nextInput_ackInput (s : State) : (nextInput s).ackInput = s.ackInput.tail := rfl

@[simp] theorem createRun_x (cfg : Config) (ok : cfg.WellFormed) (raw : List Item) (acks : List Bool) : (createRun cfg ok raw acks).x = .initial := rfl
@[simp] theorem createRun_pc (cfg : Config) (ok : cfg.WellFormed) (raw : List Item) (acks : List Bool) : (createRun cfg ok raw acks).pc = 0 := rfl
@[simp] theorem createRun_mode (cfg : Config) (ok : cfg.WellFormed) (raw : List Item) (acks : List Bool) : (createRun cfg ok raw acks).mode = .run := rfl
@[simp] theorem createRun_trace (cfg : Config) (ok : cfg.WellFormed) (raw : List Item) (acks : List Bool) : (createRun cfg ok raw acks).trace = [] := rfl
@[simp] theorem createRun_program (cfg : Config) (ok : cfg.WellFormed) (raw : List Item) (acks : List Bool) : (createRun cfg ok raw acks).program = annotate cfg.minDist raw := rfl
@[simp] theorem createRun_cfg (cfg : Config) (ok : cfg.WellFormed) (raw : List Item) (acks : List Bool) : (createRun cfg ok raw acks).cfg = cfg := rfl
@[simp] theorem createRun_ackInput (cfg : Config) (ok : cfg.WellFormed) (raw : List Item) (acks : List Bool) : (createRun cfg ok raw acks).ackInput = acks := rfl

@[simp] theorem reset_x  : (State.reset).x = .initial := rfl
@[simp] theorem reset_pc  : (State.reset).pc = 0 := rfl
@[simp] theorem reset_mode  : (State.reset).mode = .run := rfl
@[simp] theorem reset_trace  : (State.reset).trace = [] := rfl
@[simp] theorem reset_program  : (State.reset).program = [] := rfl
@[simp] theorem reset_cfg  : (State.reset).cfg = .default := rfl
@[simp] theorem reset_ackInput  : (State.reset).ackInput = [] := rfl

@[simp] theorem placeTokens_x (s : State) (ts : List Token) : (placeTokens s ts).x = s.x := rfl
@[simp] theorem placeTokens_pc (s : State) (ts : List Token) : (placeTokens s ts).pc = s.pc := rfl
@[simp] theorem placeTokens_mode (s : State) (ts : List Token) : (placeTokens s ts).mode = .run := rfl
@[simp] theorem placeTokens_trace (s : State) (ts : List Token) : (placeTokens s ts).trace = s.trace := rfl
@[simp] theorem placeTokens_program (s : State) (ts : List Token) : (placeTokens s ts).program = s.program.take s.pc ++ List.replicate (s.pc - s.program.length) "0".toList ++ ts
      ++ s.program.drop (s.pc + ts.length) := rfl
@[simp] theorem placeTokens_cfg (s : State) (ts : List Token) : (placeTokens s ts).cfg = s.cfg := rfl
@[simp] theorem placeTokens_ackInput (s : State) (ts : List Token) : (placeTokens s ts).ackInput = s.ackInput := rfl

@[simp] theorem acknowledge_x (s : State) : (acknowledge s).x = s.x := by
  unfold acknowledge; split <;> rfl

@[simp] theorem acknowledge_pc (s : State) : (acknowledge s).pc = s.pc := by
  unfold acknowledge; split <;> rfl

@[simp] theorem acknowledge_trace (s : State) : (acknowledge s).trace = s.trace := by
  unfold acknowledge; split <;> rfl

@[simp] theorem acknowledge_program (s : State) : (acknowledge s).program = s.program := by
  unfold acknowledge; split <;> rfl

@[simp] theorem acknowledge_cfg (s : State) : (acknowledge s).cfg = s.cfg := by
  unfold acknowledge; split <;> rfl

@[simp] theorem acknowledge_ackInput (s : State) : (acknowledge s).ackInput = s.ackInput := by
  unfold acknowledge; split <;> rfl

@[simp] theorem acknowledge_mode (s : State) :
    (acknowledge s).mode = if s.mode = .awaitAck then .run else s.mode := by
  unfold acknowledge; split <;> simp_all

/-! ### The State Vector -/

@[simp] theorem writeLoc_opcode (l : Loc) (v : Nat) (x : StateVector) : (writeLoc l v x).opcode = x.opcode := by
  cases l <;> rfl

@[simp] theorem writeLoc_reserved (l : Loc) (v : Nat) (x : StateVector) : (writeLoc l v x).reserved = x.reserved := by
  cases l <;> rfl

@[simp] theorem writeLoc_flags (l : Loc) (v : Nat) (x : StateVector) : (writeLoc l v x).flags = x.flags := by
  cases l <;> rfl

@[simp] theorem flagsAfter_eq (f : FlagsWord) : flagsAfter f = f := rfl

@[simp] theorem readLoc_control (l : Loc) (x : StateVector) (c : OpcodeWord) (f : FlagsWord) :
    readLoc l { x with opcode := c, flags := f } = readLoc l x := by
  cases l <;> rfl

@[simp] theorem readLoc_opcode (l : Loc) (x : StateVector) (c : OpcodeWord) :
    readLoc l { x with opcode := c } = readLoc l x := by
  cases l <;> rfl

/-- Two State Vectors are equal when they agree on every location and on the control fields. -/
theorem StateVector.ext_locs {x y : StateVector} (h : ∀ l, readLoc l x = readLoc l y) (ho : x.opcode = y.opcode)
    (hr : x.reserved = y.reserved) (hf : x.flags = y.flags) : x = y := by
  cases x; cases y
  have hC := h .regC; have hB := h .regB; have hA := h .regA
  have h5 := h .mem5; have h4 := h .mem4; have h3 := h .mem3; have h2 := h .mem2; have h1 := h .mem1
  simp only [readLoc, BitVec.toNat_inj] at *
  simp_all

end Sys2Proof.Machine
end

