-- ==== Sys2Proof/Laws/Annotator.lean ====
section
/-! SUPPORT. What the annotator's scan can do, said once. -/

namespace Sys2Proof.Machine

@[simp] theorem itemTokens_append (A B : List Item) : itemTokens (A ++ B) = itemTokens A ++ itemTokens B := by
  induction A with
  | nil => rfl
  | cons a A ih => cases a <;> simp [itemTokens, ih]

@[simp] theorem itemTokens_map_tok (ts : List Token) : itemTokens (ts.map .tok) = ts := by
  induction ts with
  | nil => rfl
  | cons t ts ih => simp [itemTokens, ih]

theorem take_insertStalls {A : List Item} {j : Nat} (h : j < A.length) :
    (insertStalls A j).take (j + 1) = A.take (j + 1) := by
  have hl : (A.take (j + 1)).length = j + 1 := by simp; omega
  rw [insertStalls, List.append_assoc]
  exact List.take_left' hl

theorem drop_insertStalls {A : List Item} {j : Nat} (h : j < A.length) :
    (insertStalls A j).drop (j + 1) = stallItem :: stallItem :: A.drop (j + 1) := by
  have hl : (A.take (j + 1)).length = j + 1 := by simp; omega
  rw [insertStalls, List.append_assoc]
  exact List.drop_left' hl

theorem StallPairs.refl (A : List Item) : StallPairs A 0 (itemTokens A) := by
  induction A with
  | nil => exact .nil
  | cons a A ih => cases a <;> [exact .tok ih; exact .lb ih]

theorem StallPairs.of_tok {t : Token} {A : List Item} {n : Nat} {p : List Token} (h : StallPairs (.tok t :: A) n p) :
    ∃ q, p = t :: q ∧ StallPairs A n q := by
  cases h with
  | tok h => exact ⟨_, rfl, h⟩

/-- The scan keeps what it has passed, and inserts pairs after markers in the rest. -/
theorem scan_stallPairs (minDist fuel : Nat) (A : List Item) (b : Int) (j : Nat) :
    ∃ n p, itemTokens (scan minDist fuel A b j) = itemTokens (A.take j) ++ p ∧ StallPairs (A.drop j) n p := by
  induction fuel generalizing A b j with
  | zero =>
    refine ⟨0, itemTokens (A.drop j), ?_, .refl _⟩
    rw [← itemTokens_append, List.take_append_drop]; rfl
  | succ fuel ih =>
    unfold scan
    split
    · rename_i hj
      split
      · rename_i hh
        obtain ⟨n, p, hp, hi⟩ := ih (insertStalls A j) j (j + 1)
        rw [take_insertStalls hj] at hp
        rw [drop_insertStalls hj] at hi
        obtain ⟨p1, rfl, hi1⟩ := hi.of_tok
        obtain ⟨p2, rfl, hi2⟩ := hi1.of_tok
        have hlb : A[j]? = some .lb := by
          simp only [isCandidate, Bool.and_eq_true, beq_iff_eq] at hh
          exact hh.1.1.1
        rw [List.getElem?_eq_getElem hj, Option.some.injEq] at hlb
        refine ⟨n + 1, "STALL".toList :: "STALL".toList :: p2, ?_, ?_⟩
        · rw [hp, List.take_succ_eq_append_getElem hj, hlb, itemTokens_append]
          exact congrArg (· ++ _) (List.append_nil _)
        · rw [List.drop_eq_getElem_cons hj, hlb]
          exact .pair hi2
      · obtain ⟨n, p, hp, hi⟩ := ih A b (j + 1)
        rw [hp, List.take_succ_eq_append_getElem hj, List.drop_eq_getElem_cons hj]
        cases A[j] with
        | tok t => exact ⟨n, t :: p, by simp [itemTokens], .tok hi⟩
        | lb => exact ⟨n, p, by simp [itemTokens], .lb hi⟩
    · refine ⟨0, [], ?_, ?_⟩
      · rw [List.take_of_length_le (by omega), List.append_nil]
      · rw [List.drop_of_length_le (by omega)]; exact .nil

/-- The annotated stream is the raw stream's tokens with pairs of STALL tokens after some of the markers. -/
theorem annotate_stallPairs (minDist : Nat) (raw : List Item) : ∃ n, StallPairs raw n (annotate minDist raw) := by
  obtain ⟨n, p, hp, hi⟩ := scan_stallPairs minDist (3 * raw.length) raw (-1) 0
  simp only [List.take_zero, List.drop_zero] at hp hi
  rw [annotate, hp]
  exact ⟨n, hi⟩

end Sys2Proof.Machine
end

