-- ==== Sys2Proof/Laws/Decode.lean ====
section
/-! SUPPORT. The small laws of the tables, the operand classes, the decoder and the encoder. -/

namespace Sys2Proof

/-! ### Mnemonics -/

@[simp] theorem mnemonicOf?_token (m : Mnemonic) : mnemonicOf? m.token = some m := by
  cases m <;> rfl

/-- A token is a mnemonic exactly when it is spelled as one. -/
theorem mnemonicOf?_eq_some {t : Token} {m : Mnemonic} : mnemonicOf? t = some m ↔ t = m.token := by
  constructor
  · intro h
    have := List.find?_some h
    simpa using (eq_of_beq this).symm
  · rintro rfl
    exact mnemonicOf?_token m

theorem Mnemonic.token_inj {m n : Mnemonic} (h : m.token = n.token) : m = n := by
  have := mnemonicOf?_token m
  rw [h, mnemonicOf?_token] at this
  exact (Option.some.inj this).symm

theorem Instr.operands_length (i : Instr) : i.operands.length = i.mnemonic.arity := by
  cases i <;> rfl

/-! ### Locations -/

@[simp] theorem locationOf?_locName (l : Loc) (sp : Spelling) : locationOf? (locName l sp) = some (l, sp) := by
  cases l <;> cases sp <;> rfl

theorem locationOf?_eq_some {t : Token} {l : Loc} {sp : Spelling} :
    locationOf? t = some (l, sp) ↔ t = locName l sp := by
  constructor
  · intro h
    unfold locationOf? at h
    have := List.find?_some h
    simpa using (eq_of_beq this).symm
  · rintro rfl
    exact locationOf?_locName l sp

/-! ### Literals -/

@[simp] theorem digitOf?_digitChar (d : Fin 10) : digitOf? (digitChar d) = some d := by
  revert d; decide

theorem digitChar_of_digitOf? {c : Char} {d : Fin 10} (h : digitOf? c = some d) : digitChar d = c := by
  unfold digitOf? at h
  split at h
  · obtain rfl := Option.some.inj h
    rename_i hc
    have : 48 + (c.toNat - 48) = c.toNat := by omega
    simp only [digitChar, this]
    exact Char.ofNat_toNat c
  · cases h

theorem digitChar_ne_minus (d : Fin 10) : digitChar d ≠ '-' := by
  revert d; decide

@[simp] theorem digitsOf?_map (ds : List (Fin 10)) : digitsOf? (ds.map digitChar) = some ds := by
  induction ds with
  | nil => rfl
  | cons d ds ih => simp [digitsOf?, ih]

theorem map_of_digitsOf? {cs : List Char} {ds : List (Fin 10)} (h : digitsOf? cs = some ds) :
    ds.map digitChar = cs := by
  induction cs generalizing ds with
  | nil => simp_all [digitsOf?]
  | cons c cs ih =>
    unfold digitsOf? at h
    split at h
    · rename_i hd hs
      obtain rfl := Option.some.inj h
      simp [digitChar_of_digitOf? hd, ih hs]
    · cases h

/-- A literal written and read back is itself. -/
theorem literalOf?_text {neg : Bool} {ds : List (Fin 10)} (h : ds ≠ []) :
    literalOf? (Operand.lit neg ds).text = some (neg, ds) := by
  obtain ⟨d, ds, rfl⟩ := List.exists_cons_of_ne_nil h
  cases neg
  · have := digitsOf?_map (d :: ds)
    simp only [List.map_cons] at this
    simp [Operand.text, literalOf?, digitChar_ne_minus, this]
  · have := digitsOf?_map (d :: ds)
    simp only [List.map_cons] at this
    simp [Operand.text, literalOf?, this]

/-- A token read as a literal is written back as itself. -/
theorem text_of_literalOf? {t : Token} {neg : Bool} {ds : List (Fin 10)} (h : literalOf? t = some (neg, ds)) :
    (Operand.lit neg ds).text = t ∧ ds ≠ [] := by
  rcases t with _ | ⟨c, cs⟩
  · simp [literalOf?] at h
  by_cases hc : c = '-'
  · subst hc
    rcases hd : digitsOf? cs with _ | _ | ⟨d, ds'⟩ <;> simp [literalOf?, hd] at h
    obtain ⟨rfl, rfl⟩ := h
    exact ⟨by simpa [Operand.text] using map_of_digitsOf? hd, by simp⟩
  · rcases hd : digitsOf? (c :: cs) with _ | ds' <;> simp [literalOf?, hc, hd] at h
    obtain ⟨rfl, rfl⟩ := h
    have := map_of_digitsOf? hd
    refine ⟨by simpa [Operand.text] using this, ?_⟩
    rintro rfl
    simp at this

/-- No location name is a literal (30_encoding.md R75). -/
theorem locationOf?_of_literal {t : Token} {neg : Bool} {ds : List (Fin 10)} (h : literalOf? t = some (neg, ds)) :
    locationOf? t = none := by
  cases hl : locationOf? t with
  | none => rfl
  | some p =>
    obtain ⟨l, sp⟩ := p
    rw [locationOf?_eq_some] at hl
    subst hl
    revert h
    cases l <;> cases sp <;> simp [literalOf?, locName, digitsOf?, digitOf?]

/-! ### Operands -/

@[simp] theorem operandOf_locName (l : Loc) (sp : Spelling) : operandOf (locName l sp) = .loc l sp := by
  simp [operandOf]

/-- Writing the operand a token is read as gives the token back. -/
@[simp] theorem text_operandOf (t : Token) : (operandOf t).text = t := by
  unfold operandOf
  split
  · rename_i h
    exact (locationOf?_eq_some.mp h).symm
  · split
    · rename_i h
      exact (text_of_literalOf? h).1
    · rfl

/-- Reading the token a well-formed operand is written as gives the operand back. -/
theorem operandOf_text {o : Operand} (h : o.WellFormed) : operandOf o.text = o := by
  cases o with
  | loc l sp => simp [Operand.text]
  | lit neg ds =>
    have := literalOf?_text (neg := neg) h
    simp [operandOf, locationOf?_of_literal this, this]
  | other t =>
    obtain ⟨-, hl, hn⟩ := h
    simp [operandOf, Operand.text, hl, hn]

/-- The operand a token of a stream is read as is well-formed. -/
theorem operandOf_wellFormed {t : Token} (h : t.WellFormed) : (operandOf t).WellFormed := by
  unfold operandOf
  split
  · trivial
  · split
    · rename_i hl
      exact (text_of_literalOf? hl).2
    · rename_i hl _ hn
      exact ⟨h, hl, hn⟩

/-! ### The decoder -/

@[simp] theorem decode_nil : decode [] = .endOfStream := rfl

theorem decode_notMnemonic {t : Token} {rest : List Token} (h : mnemonicOf? t = none) :
    decode (t :: rest) = .notMnemonic t rest := by
  simp [decode, h]

theorem decode_truncated {m : Mnemonic} {rest : List Token} (h : rest.length < m.arity) :
    decode (m.token :: rest) = .truncated m rest.length := by
  simp only [decode, mnemonicOf?_token]
  cases m <;> first
    | exact absurd h (Nat.not_lt_zero _)
    | (rcases rest with _ | ⟨a, _ | ⟨b, _ | ⟨c, rest⟩⟩⟩ <;>
        first
          | rfl
          | (exfalso; revert h; simp [Mnemonic.arity, Mnemonic.format, Format.arity]))

/-- What the decoder says of a token list: the list is then of the form read. -/
theorem decode_cases (ts : List Token) :
    (ts = [] ∧ decode ts = .endOfStream) ∨
    (∃ t rest, ts = t :: rest ∧ mnemonicOf? t = none ∧ decode ts = .notMnemonic t rest) ∨
    (∃ m rest, ts = m.token :: rest ∧ rest.length < m.arity ∧ decode ts = .truncated m rest.length) ∨
    (∃ i os rest, ts = i.mnemonic.token :: (os ++ rest) ∧ i.operands = os.map operandOf ∧
      decode ts = .instr i rest) := by
  rcases ts with _ | ⟨t, rest⟩
  · exact .inl ⟨rfl, rfl⟩
  cases hm : mnemonicOf? t with
  | none => exact .inr (.inl ⟨t, rest, rfl, hm, decode_notMnemonic hm⟩)
  | some m =>
    rw [mnemonicOf?_eq_some] at hm
    subst hm
    by_cases hl : rest.length < m.arity
    · exact .inr (.inr (.inl ⟨m, rest, rfl, hl, decode_truncated hl⟩))
    · right; right; right
      simp only [decode, mnemonicOf?_token]
      cases m <;>
        rcases rest with _ | ⟨a, _ | ⟨b, _ | ⟨c, rest⟩⟩⟩ <;>
        first
          | (exfalso; apply hl; simp [Mnemonic.arity, Mnemonic.format, Format.arity]; done)
          | exact ⟨_, [], _, rfl, rfl, rfl⟩
          | exact ⟨_, [a], _, rfl, rfl, rfl⟩
          | exact ⟨_, [a, b], _, rfl, rfl, rfl⟩
          | exact ⟨_, [a, b, c], _, rfl, rfl, rfl⟩

/-- What follows an instruction in the stream does not change how it is read (30_encoding.md R74). -/
theorem decode_append {ts rest : List Token} {i : Instr} (h : decode ts = .instr i rest) (more : List Token) :
    decode (ts ++ more) = .instr i (rest ++ more) := by
  rcases ts with _ | ⟨t, ts⟩
  · cases h
  · simp only [decode, List.cons_append] at *
    cases hm : mnemonicOf? t with
    | none => simp [hm] at h
    | some m =>
      simp only [hm] at h ⊢
      cases hk : maker m <;> rcases ts with _ | ⟨a, _ | ⟨b, _ | ⟨c, ts⟩⟩⟩ <;> simp_all

end Sys2Proof
end

