-- ==== Sys2Proof/Laws/Operands.lean ====
section
/-! SUPPORT. The laws of locations, operand resolution and the views. -/

namespace Sys2Proof.Machine

/-! ### Locations -/

/-- A location's value is below 2^w (10_state.md R21). -/
theorem readLoc_lt (l : Loc) (x : StateVector) : readLoc l x < 2 ^ widthOf l := by
  cases l <;> exact BitVec.isLt _

/-- A fitted value written is the value read. -/
theorem readLoc_writeLoc_same {l : Loc} {v : Nat} (x : StateVector) (h : v < 2 ^ widthOf l) :
    readLoc l (writeLoc l v x) = v := by
  cases l <;> simp only [readLoc, writeLoc, BitVec.toNat_ofNat] <;> exact Nat.mod_eq_of_lt h

/-- A write leaves every other location as it was. -/
theorem readLoc_writeLoc_other {l k : Loc} (h : k ≠ l) (v : Nat) (x : StateVector) :
    readLoc k (writeLoc l v x) = readLoc k x := by
  cases l <;> cases k <;> first | rfl | exact absurd rfl h

/-- Writing what a location holds changes nothing. -/
theorem writeLoc_readLoc (l : Loc) (x : StateVector) : writeLoc l (readLoc l x) x = x := by
  cases l <;> simp [readLoc, writeLoc]

/-- Writes to a location agree when they agree modulo its width. -/
theorem readLoc_writeLoc (l k : Loc) (v : Nat) (x : StateVector) :
    readLoc k (writeLoc l v x) = if k = l then v % 2 ^ widthOf l else readLoc k x := by
  by_cases h : k = l
  · subst h
    cases k <;> simp [readLoc, writeLoc, widthOf]
  · simp [h, readLoc_writeLoc_other]

/-! ### Resolution -/

/-- A source operand that stands for a value resolves to it. -/
theorem resolve_of_valueOf {x : StateVector} {o : Operand} {v : Resolved} (k : Nat) (h : valueOf x o = some v) :
    resolve k o x = .ok v := by
  cases o <;> simp_all [valueOf, resolve]

/-- A source operand resolves exactly to the value it stands for, or is an "other" token and is reported. -/
theorem resolve_cases (k : Nat) (o : Operand) (x : StateVector) :
    (∃ v, valueOf x o = some v ∧ resolve k o x = .ok v) ∨
    (∃ t, o = .other t ∧ resolve k o x = .error (.unknownOperand t k)) := by
  cases o with
  | loc l sp => exact .inl ⟨_, rfl, rfl⟩
  | lit neg ds => exact .inl ⟨_, rfl, rfl⟩
  | other t => exact .inr ⟨t, rfl, rfl⟩

/-- A destination is a location name, or is reported at offset 1. -/
theorem destOf_cases (o : Operand) :
    (∃ d sp, o = .loc d sp ∧ destOf o = .ok d) ∨
    ((∀ d sp, o ≠ .loc d sp) ∧ destOf o = .error (.unknownOperand o.text 1)) := by
  cases o with
  | loc l sp => exact .inl ⟨l, sp, rfl, rfl⟩
  | lit neg ds => exact .inr ⟨by simp, rfl⟩
  | other t => exact .inr ⟨by simp, rfl⟩

/-- Resolution reads the locations only. -/
theorem resolve_congr {x y : StateVector} (h : ∀ l, readLoc l x = readLoc l y) (k : Nat) (o : Operand) :
    resolve k o x = resolve k o y := by
  cases o <;> simp [resolve, h]

/-! ### Fields -/

/-- The values of the fields agree when the locations and the control fields do. -/
theorem mem_fieldValues {x : StateVector} {v : Nat} :
    v ∈ fieldValues x ↔ (∃ l, v = readLoc l x) ∨ v = x.opcode.toNat ∨ v = x.reserved.toNat ∨ v = x.flags.toNat := by
  constructor
  · intro h
    simp only [fieldValues, List.mem_cons, List.not_mem_nil, or_false] at h
    rcases h with h | h | h | h | h | h | h | h | h | h | h
    · exact .inl ⟨.regC, h⟩
    · exact .inl ⟨.regB, h⟩
    · exact .inl ⟨.regA, h⟩
    · exact .inl ⟨.mem5, h⟩
    · exact .inl ⟨.mem4, h⟩
    · exact .inl ⟨.mem3, h⟩
    · exact .inl ⟨.mem2, h⟩
    · exact .inl ⟨.mem1, h⟩
    · exact .inr (.inl h)
    · exact .inr (.inr (.inl h))
    · exact .inr (.inr (.inr h))
  · rintro (⟨l, rfl⟩ | rfl | rfl | rfl)
    · cases l <;> simp [fieldValues, readLoc]
    all_goals simp [fieldValues]

/-- Whether every field is below 2^32 depends on the locations only (40_engine.md R122). -/
theorem fields_small_iff (x : StateVector) :
    (∀ v ∈ fieldValues x, v < 2 ^ 32) ↔ ∀ l, readLoc l x < 2 ^ 32 := by
  constructor
  · intro h l
    exact h _ (mem_fieldValues.mpr (.inl ⟨l, rfl⟩))
  · intro h v hv
    rcases mem_fieldValues.mp hv with ⟨l, rfl⟩ | rfl | rfl | rfl
    · exact h l
    · exact lt_of_lt_of_le x.opcode.isLt (by norm_num)
    · exact lt_of_lt_of_le x.reserved.isLt (by norm_num)
    · exact lt_of_lt_of_le x.flags.isLt (by norm_num)

end Sys2Proof.Machine
end

