-- ==== Sys2Proof/Laws/Exec.lean ====
section
/-! SUPPORT. What Fit, the render, completion and exec can do, said once: later proofs cite these lemmas instead of
unfolding a meaning. -/

namespace Sys2Proof.Machine

/-! ### Fit and the render -/

/-- `Fit` stores the result modulo 2^w when it accepts it (40_engine.md R108). -/
theorem fit_of_fits {cfg : Config} {d : Loc} {r : Int} (dest : Option Token) (h : Fits cfg d r) :
    fit cfg d dest r = .ok (r % 2 ^ widthOf d).toNat := by
  unfold fit
  rcases h with h | h
  · simp [h]
  · cases cfg.overflow
    · rfl
    · simp [h, Int.emod_eq_of_lt h.1 h.2]

/-- `Fit` raises WidthViolation otherwise. -/
theorem fit_of_not_fits {cfg : Config} {d : Loc} {r : Int} (dest : Option Token) (h : ¬ Fits cfg d r) :
    fit cfg d dest r = .error (.widthViolation (slotOf d) dest r) := by
  unfold fit
  unfold Fits at h
  push Not at h
  cases hc : cfg.overflow
  · exact absurd hc h.1
  · simp only [ite_eq_right_iff]
    rintro ⟨h0, h1⟩
    exact absurd h1 (not_lt.mpr (h.2 h0))

/-- A fitted result is below 2^w. -/
theorem fitted_lt (d : Loc) (r : Int) : (r % 2 ^ widthOf d).toNat < 2 ^ widthOf d := by
  have h0 : (0 : Int) < 2 ^ widthOf d := by positivity
  have h1 := Int.emod_nonneg r h0.ne'
  have h2 := Int.emod_lt_of_pos r h0
  zify
  rw [Int.toNat_of_nonneg h1]
  exact_mod_cast h2

theorem firstOver_eq_none {vs : List Nat} {k : Nat} : firstOver k vs = none ↔ ∀ v ∈ vs, v < 2 ^ 32 := by
  induction vs generalizing k with
  | nil => simp [firstOver]
  | cons v vs ih =>
    simp only [firstOver]
    split
    · simp; omega
    · simp [ih]; omega

theorem firstOver_eq_some {vs : List Nat} {k slot v : Nat} (h : firstOver k vs = some (slot, v)) :
    k ≤ slot ∧ vs[slot - k]? = some v ∧ 2 ^ 32 ≤ v ∧ ∀ u ∈ vs.take (slot - k), u < 2 ^ 32 := by
  induction vs generalizing k with
  | nil => simp [firstOver] at h
  | cons u vs ih =>
    simp only [firstOver] at h
    split at h
    · rename_i hu
      simp only [Option.some.injEq, Prod.mk.injEq] at h
      obtain ⟨rfl, rfl⟩ := h
      exact ⟨le_refl _, by simp, hu, by simp⟩
    · rename_i hu
      obtain ⟨h1, h2, h3, h4⟩ := ih h
      obtain ⟨n, rfl⟩ : ∃ n, slot = k + 1 + n := ⟨slot - (k + 1), by omega⟩
      have e1 : k + 1 + n - (k + 1) = n := by omega
      have e2 : k + 1 + n - k = n + 1 := by omega
      rw [e1] at h2 h4
      rw [e2]
      refine ⟨by omega, by simpa using h2, h3, ?_⟩
      intro w hw
      simp only [List.take_succ_cons, List.mem_cons] at hw
      rcases hw with rfl | hw
      · omega
      · exact h4 w hw

/-- The first slot over 2^32 is the one `firstOver` finds. -/
theorem firstOver_of_FirstOver {vs : List Nat} {k slot v : Nat} (h1 : vs[slot]? = some v) (h2 : 2 ^ 32 ≤ v)
    (h3 : ∀ u ∈ vs.take slot, u < 2 ^ 32) : firstOver k vs = some (k + slot, v) := by
  induction vs generalizing k slot with
  | nil => simp at h1
  | cons u vs ih =>
    cases slot with
    | zero =>
      simp only [List.getElem?_cons_zero, Option.some.injEq] at h1
      subst h1
      simp only [firstOver, if_pos h2, Nat.add_zero]
    | succ n =>
      simp only [List.getElem?_cons_succ] at h1
      simp only [List.take_succ_cons, List.mem_cons, forall_eq_or_imp] at h3
      have := ih (k := k + 1) h1 h3.2
      simp only [firstOver, if_neg (not_le.mpr h3.1), this]
      congr 2
      omega

theorem render_of_renderable {cfg : Config} {x : StateVector} (h : Renderable cfg x) :
    render cfg x = .ok (renderRecord x) := by
  unfold render
  rcases h with h | h
  · simp [h]
  · cases cfg.render
    · rfl
    · simp [firstOver_eq_none.mpr h]

/-- The render gives the record, or names the first slot over 2^32 under `RENDER_POLICY = fault` (40_engine.md R122). -/
theorem render_cases (cfg : Config) (x : StateVector) :
    (Renderable cfg x ∧ render cfg x = .ok (renderRecord x)) ∨
    (cfg.render = .fault ∧ ∃ slot v, FirstOver x slot v ∧ render cfg x = .error (.renderOverflow slot v)) := by
  by_cases h : Renderable cfg x
  · exact .inl ⟨h, render_of_renderable h⟩
  · right
    unfold Renderable at h
    push Not at h
    have hc : cfg.render = .fault := by
      cases hc : cfg.render
      · exact absurd hc h.1
      · rfl
    refine ⟨hc, ?_⟩
    cases hf : firstOver 0 (fieldValues x) with
    | none =>
      obtain ⟨v, hv, hle⟩ := h.2
      exact absurd (firstOver_eq_none.mp hf v hv) (not_lt.mpr hle)
    | some p =>
      obtain ⟨slot, v⟩ := p
      obtain ⟨-, h1, h2, h3⟩ := firstOver_eq_some hf
      exact ⟨slot, v, ⟨h1, h2, h3⟩, by simp [render, hc, hf]⟩

theorem render_of_firstOver {cfg : Config} {x : StateVector} {slot v : Nat} (hc : cfg.render = .fault)
    (h : FirstOver x slot v) : render cfg x = .error (.renderOverflow slot v) := by
  have := firstOver_of_FirstOver (k := 0) h.1 h.2.1 h.2.2
  simp [render, hc, this]

/-! ### Completion -/

/-- What completion leaves in the State Vector. -/
def committed (cfg : Config) (m : Mnemonic) (x : StateVector) : StateVector := { x with opcode := codeOf cfg m }

@[simp] theorem committed_opcode (cfg : Config) (m : Mnemonic) (x : StateVector) :
    (committed cfg m x).opcode = codeOf cfg m := rfl
@[simp] theorem committed_reserved (cfg : Config) (m : Mnemonic) (x : StateVector) :
    (committed cfg m x).reserved = x.reserved := rfl
@[simp] theorem committed_flags (cfg : Config) (m : Mnemonic) (x : StateVector) :
    (committed cfg m x).flags = x.flags := rfl
@[simp] theorem readLoc_committed (l : Loc) (cfg : Config) (m : Mnemonic) (x : StateVector) :
    readLoc l (committed cfg m x) = readLoc l x := by
  cases l <;> rfl

/-- Completion commits and renders, or commits and takes RenderOverflow. -/
theorem complete_cases (m : Mnemonic) (x : StateVector) (s : State) :
    (Renderable s.cfg (committed s.cfg m x) ∧ complete m x s = afterCommit s m.arity (committed s.cfg m x)) ∨
    (s.cfg.render = .fault ∧ ∃ slot v, FirstOver (committed s.cfg m x) slot v ∧
      complete m x s = afterOverflow s m.token m.arity (committed s.cfg m x) slot v) := by
  have hx : ({ x with opcode := codeOf s.cfg m, flags := flagsAfter x.flags } : StateVector) = committed s.cfg m x := rfl
  rcases render_cases s.cfg (committed s.cfg m x) with ⟨h, hr⟩ | ⟨hc, slot, v, h, hr⟩
  · exact .inl ⟨h, by simp only [complete, hx, hr, afterCommit, Nat.add_assoc]⟩
  · exact .inr ⟨hc, slot, v, h, by simp only [complete, hx, hr, afterOverflow, takeError, Nat.add_assoc]⟩

/-- Completion satisfies the rule of a commit. -/
theorem complete_commitsTo (m : Mnemonic) (x : StateVector) (s : State) :
    CommitsTo (.next (complete m x s)) s m.token m.arity (committed s.cfg m x) := by
  have hx : ({ x with opcode := codeOf s.cfg m, flags := flagsAfter x.flags } : StateVector) = committed s.cfg m x := rfl
  constructor
  · intro h
    simp only [complete, hx, render_of_renderable h, afterCommit, Nat.add_assoc]
  · intro hc slot v h
    simp only [complete, hx, render_of_firstOver hc h, afterOverflow, takeError, Nat.add_assoc]

theorem takeError_eq_afterError (m : Mnemonic) (e : CoreError) (s : State) :
    takeError m e s.pc s = afterError s m.token e := rfl

/-! ### Executing an instruction -/

/-- An instruction with a pending write satisfies the rule of a write. -/
theorem perform_writesTo {m : Mnemonic} {dest : Option Token} {d : Loc} {r : Int} {s : State}
    {res : Except CoreError Effect} (h : res = .ok (.write d r)) :
    WritesTo (perform m dest res s) s m.token m.arity dest d r (codeOf s.cfg m) := by
  subst h
  constructor
  · intro hf
    simp only [perform, fit_of_fits dest hf]
    exact complete_commitsTo m _ s
  · intro hf
    simp only [perform, fit_of_not_fits dest hf, takeError_eq_afterError]

/-- Everything an executed instruction can come to. -/
theorem perform_cases (m : Mnemonic) (dest : Option Token) (res : Except CoreError Effect) (s : State) :
    (∃ e, res = .error e ∧ perform m dest res s = .next (afterError s m.token e)) ∨
    (∃ d r, res = .ok (.write d r) ∧ ¬ Fits s.cfg d r ∧
      perform m dest res s = .next (afterError s m.token (.widthViolation (slotOf d) dest r))) ∨
    (∃ x, (res = .ok .nothing ∧ x = s.x ∨ res = .ok .reset ∧ x = .initial ∨
        ∃ d r, res = .ok (.write d r) ∧ Fits s.cfg d r ∧ x = writeLoc d (r % 2 ^ widthOf d).toNat s.x) ∧
      perform m dest res s = .next (complete m x s)) := by
  rcases res with e | ⟨d, r⟩ | _ | _
  · exact .inl ⟨e, rfl, rfl⟩
  · by_cases h : Fits s.cfg d r
    · exact .inr (.inr ⟨_, .inr (.inr ⟨d, r, rfl, h, rfl⟩), by simp only [perform, fit_of_fits dest h]⟩)
    · exact .inr (.inl ⟨d, r, rfl, h, by simp only [perform, fit_of_not_fits dest h, takeError_eq_afterError]⟩)
  · exact .inr (.inr ⟨_, .inl ⟨rfl, rfl⟩, rfl⟩)
  · exact .inr (.inr ⟨_, .inr (.inl ⟨rfl, rfl⟩), rfl⟩)

/-! ### The operand shapes -/

/-- What is common to every operation: it raises errors of code 1 and 2 only, and reads the locations only. -/
structure Operation (res : StateVector → Except CoreError Effect) (target : Option Loc) : Prop where
  early : ∀ x e, res x = .error e → e.code = 1 ∨ e.code = 2
  writes : ∀ x d r, res x = .ok (.write d r) → target = some d
  congr : ∀ x y, (∀ l, readLoc l x = readLoc l y) → res x = res y

theorem binary_operation (dest a b : Operand) (op : Resolved → Resolved → Except CoreError Int)
    (hop : ∀ u v e, op u v = .error e → e.code = 1 ∨ e.code = 2) :
    Operation (binary dest a b op) (namedLoc? dest) where
  early x e h := by
    unfold binary at h
    rcases destOf_cases dest with ⟨d, sp, rfl, hd⟩ | ⟨hd', hd⟩ <;> rw [hd] at h
    · rcases resolve_cases 2 a x with ⟨u, -, hu⟩ | ⟨t, -, hu⟩ <;> rw [hu] at h
      · rcases resolve_cases 3 b x with ⟨v, -, hv⟩ | ⟨t, -, hv⟩ <;> rw [hv] at h
        · cases ho : op u v with
          | error e' => simp only [ho, Except.error.injEq] at h; subst h; exact hop u v e' ho
          | ok r => simp [ho] at h
        · simp only [Except.error.injEq] at h; subst h; exact .inl rfl
      · simp only [Except.error.injEq] at h; subst h; exact .inl rfl
    · simp only [Except.error.injEq] at h; subst h; exact .inl rfl
  writes x d r h := by
    unfold binary at h
    rcases destOf_cases dest with ⟨d', sp, rfl, hd⟩ | ⟨hd', hd⟩ <;> rw [hd] at h
    · rcases resolve_cases 2 a x with ⟨u, -, hu⟩ | ⟨t, -, hu⟩ <;> rw [hu] at h
      · rcases resolve_cases 3 b x with ⟨v, -, hv⟩ | ⟨t, -, hv⟩ <;> rw [hv] at h
        · cases ho : op u v with
          | error e' => simp [ho] at h
          | ok r' => simp only [ho, Except.ok.injEq, Effect.write.injEq] at h; simp [h.1, namedLoc?]
        · simp at h
      · simp at h
    · simp at h
  congr x y h := by
    unfold binary
    rw [resolve_congr h 2 a, resolve_congr h 3 b]

theorem unary_operation (dest src : Operand) (op : Nat → Resolved → Int) :
    Operation (unary dest src op) (namedLoc? dest) where
  early x e h := by
    unfold unary at h
    rcases destOf_cases dest with ⟨d, sp, rfl, hd⟩ | ⟨hd', hd⟩ <;> rw [hd] at h
    · rcases resolve_cases 2 src x with ⟨u, -, hu⟩ | ⟨t, -, hu⟩ <;> rw [hu] at h
      · simp at h
      · simp only [Except.error.injEq] at h; subst h; exact .inl rfl
    · simp only [Except.error.injEq] at h; subst h; exact .inl rfl
  writes x d r h := by
    unfold unary at h
    rcases destOf_cases dest with ⟨d', sp, rfl, hd⟩ | ⟨hd', hd⟩ <;> rw [hd] at h
    · rcases resolve_cases 2 src x with ⟨u, -, hu⟩ | ⟨t, -, hu⟩ <;> rw [hu] at h
      · simp only [Except.ok.injEq, Effect.write.injEq] at h; simp [h.1, namedLoc?]
      · simp at h
    · simp at h
  congr x y h := by
    unfold unary
    rw [resolve_congr h 2 src]

theorem inbound_operation (l : Loc) (src : Operand) : Operation (inbound l src) (some l) where
  early x e h := by
    unfold inbound at h
    rcases resolve_cases 1 src x with ⟨u, -, hu⟩ | ⟨t, -, hu⟩ <;> rw [hu] at h
    · simp at h
    · simp only [Except.error.injEq] at h; subst h; exact .inl rfl
  writes x d r h := by
    unfold inbound at h
    rcases resolve_cases 1 src x with ⟨u, -, hu⟩ | ⟨t, -, hu⟩ <;> rw [hu] at h
    · simp only [Except.ok.injEq, Effect.write.injEq] at h; simp [h.1]
    · simp at h
  congr x y h := by
    unfold inbound
    rw [resolve_congr h 1 src]

theorem outbound_operation (dest : Operand) (l : Loc) :
    Operation (outbound dest l) (namedLoc? dest) where
  early x e h := by
    unfold outbound at h
    rcases destOf_cases dest with ⟨d, sp, rfl, hd⟩ | ⟨hd', hd⟩ <;> rw [hd] at h
    · simp at h
    · simp only [Except.error.injEq] at h; subst h; exact .inl rfl
  writes x d r h := by
    unfold outbound at h
    rcases destOf_cases dest with ⟨d', sp, rfl, hd⟩ | ⟨hd', hd⟩ <;> rw [hd] at h
    · simp only [Except.ok.injEq, Effect.write.injEq] at h; simp [h.1, namedLoc?]
    · simp at h
  congr x y h := by
    unfold outbound
    rw [h l]

theorem constant_operation {e : Effect} (h : ∀ d r, e ≠ .write d r) : Operation (fun _ => .ok e) none where
  early x e' h' := by simp at h'
  writes x d r h' := by simp only [Except.ok.injEq] at h'; exact absurd h' (h d r)
  congr _ _ _ := rfl

theorem quotient_early (b : Operand) (n m : Int) (e : CoreError) (h : quotient b n m = .error e) :
    e.code = 1 ∨ e.code = 2 := by
  unfold quotient at h
  split at h
  · simp only [Except.error.injEq] at h; subst h; exact .inr rfl
  · simp at h

/-- What `exec_as_perform` says of one instruction. -/
def Performs (i : Instr) : Prop := ∃ dest res, Operation res (targetOf? i) ∧
  (∀ x, res x = .ok .reset → i = .reset) ∧ ∀ s, exec i s = perform i.mnemonic dest (res s.x) s

theorem performs_binary {i : Instr} {dest a b : Operand} {op : Resolved → Resolved → Except CoreError Int}
    (h : ∀ s, exec i s = perform i.mnemonic (some dest.text) (binary dest a b op s.x) s)
    (ht : targetOf? i = namedLoc? dest)
    (hop : ∀ u v e, op u v = .error e → e.code = 1 ∨ e.code = 2) : Performs i :=
  ⟨some dest.text, binary dest a b op, ht ▸ binary_operation dest a b op hop,
    fun x h => by unfold binary at h; repeat' (first | split at h | simp at h), h⟩

theorem performs_unary {i : Instr} {dest src : Operand} {op : Nat → Resolved → Int}
    (h : ∀ s, exec i s = perform i.mnemonic (some dest.text) (unary dest src op s.x) s)
    (ht : targetOf? i = namedLoc? dest) : Performs i :=
  ⟨some dest.text, unary dest src op, ht ▸ unary_operation dest src op,
    fun x h => by unfold unary at h; repeat' (first | split at h | simp at h), h⟩

theorem performs_inbound {i : Instr} {src : Operand} {l : Loc}
    (h : ∀ s, exec i s = perform i.mnemonic none (inbound l src s.x) s) (ht : targetOf? i = some l) : Performs i :=
  ⟨none, inbound l src, ht ▸ inbound_operation l src,
    fun x h => by unfold inbound at h; repeat' (first | split at h | simp at h), h⟩

theorem performs_outbound {i : Instr} {dest : Operand} {l : Loc}
    (h : ∀ s, exec i s = perform i.mnemonic (some dest.text) (outbound dest l s.x) s)
    (ht : targetOf? i = namedLoc? dest) : Performs i :=
  ⟨some dest.text, outbound dest l, ht ▸ outbound_operation dest l,
    fun x h => by unfold outbound at h; repeat' (first | split at h | simp at h), h⟩

/-- Every meaning is `perform` on an operation of the locations; only RESET resets. -/
theorem exec_as_perform (i : Instr) : Performs i := by
  cases i with
  | zero | imm | jump | stall =>
    exact ⟨none, fun _ => .ok .nothing, constant_operation (by simp), by simp, fun _ => rfl⟩
  | reset => exact ⟨none, fun _ => .ok .reset, constant_operation (by simp), by simp, fun _ => rfl⟩
  | add dest a b | sub dest a b | mult dest a b | mulths dest a b | multhsu dest a b | storehalf dest a b
  | storeword dest a b | loadhalf dest a b | loadhalfun dest a b | loadword dest a b | setlessthan dest a b
  | setlessthanun dest a b =>
    exact performs_binary (fun _ => rfl) rfl (by simp)
  | div dest a b | divs dest a b | divuns dest a b =>
    exact performs_binary (fun _ => rfl) rfl (fun _ _ _ h => quotient_early b _ _ _ h)
  | storebyte dest src | loadbyte dest src | loadbyteun dest src | shiftleftlog dest src | shiftrightlog dest src
  | shiftrigharth dest src | shiftleftarth dest src =>
    exact performs_unary (fun _ => rfl) rfl
  | ain src | bin src | cin src | loada src | loadb src | loadc src | mem1in src | mem2in src | mem3in src
  | mem4in src | mem5in src =>
    exact performs_inbound (fun _ => rfl) rfl
  | aout dest | bout dest | cout dest | mem1out dest | mem2out dest | mem3out dest | mem4out dest | mem5out dest =>
    exact performs_outbound (fun _ => rfl) rfl

/-- Everything an instruction can come to: an error of code 1 to 3 with nothing written, or a completion whose State Vector
differs from the one before in the target location at most, unless it is RESET's. -/
theorem exec_cases (i : Instr) (s : State) :
    (∃ e, e.code ≤ 3 ∧ exec i s = .next (afterError s i.mnemonic.token e)) ∨
    (∃ x, exec i s = .next (complete i.mnemonic x s) ∧
      (x = s.x ∨ (i = .reset ∧ x = .initial) ∨
        ∃ d r, targetOf? i = some d ∧ Fits s.cfg d r ∧ x = writeLoc d (r % 2 ^ widthOf d).toNat s.x)) := by
  obtain ⟨dest, res, hop, hres, he⟩ := exec_as_perform i
  rw [he]
  rcases perform_cases i.mnemonic dest (res s.x) s with ⟨e, h, hp⟩ | ⟨d, r, h, hf, hp⟩ | ⟨x, h, hp⟩
  · refine .inl ⟨e, ?_, hp⟩
    rcases hop.early _ _ h with h | h <;> omega
  · exact .inl ⟨_, le_refl 3, hp⟩
  · refine .inr ⟨x, hp, ?_⟩
    rcases h with ⟨-, rfl⟩ | ⟨h, rfl⟩ | ⟨d, r, h, hf, rfl⟩
    · exact .inl rfl
    · exact .inr (.inl ⟨hres _ h, rfl⟩)
    · exact .inr (.inr ⟨d, r, hop.writes _ _ _ h, hf, rfl⟩)

/-! ### A step -/

/-- Everything a step can come to. -/
theorem step_cases (s : State) :
    (s.mode = .run ∧ ∃ i rest, fetch s = .instr i rest ∧ step s = exec i (nextInput s)) ∨
    (s.mode = .run ∧ (∃ t rest, fetch s = .notMnemonic t rest) ∧ step s = .next (skipToken (nextInput s))) ∨
    (s.mode = .run ∧ ∃ m k, fetch s = .truncated m k ∧
      step s = .next (afterError (nextInput s) m.token (.truncatedInstruction k))) ∨
    (s.mode = .run ∧ fetch s = .endOfStream ∧ s.pc ≤ s.program.length ∧ step s = .next (endRun (nextInput s))) ∨
    (s.mode = .run ∧ fetch s = .endOfStream ∧ s.program.length < s.pc ∧ step s = .fault .fetchPastEnd) ∨
    (s.mode = .awaitAck ∧ step s = .next (awaitStep s)) ∨
    (s.mode.terminal = true ∧ step s = .next s) := by
  unfold step cycle
  cases hm : s.mode with
  | run =>
    have hf : fetch (nextInput s) = fetch s := rfl
    simp only [stepRun, hf, nextInput_pc, nextInput_program, true_and]
    cases h : fetch s with
    | instr i rest => exact .inl ⟨i, rest, rfl, rfl⟩
    | notMnemonic t rest => exact .inr (.inl ⟨⟨t, rest, rfl⟩, rfl⟩)
    | truncated m k => exact .inr (.inr (.inl ⟨m, k, rfl, rfl⟩))
    | endOfStream =>
      by_cases hl : s.pc ≤ s.program.length
      · exact .inr (.inr (.inr (.inl ⟨rfl, hl, by simp [hl]⟩)))
      · exact .inr (.inr (.inr (.inr (.inl ⟨rfl, by omega, by simp [hl]⟩))))
  | awaitAck => simp
  | done => simp [Mode.terminal]
  | faulted r => simp [Mode.terminal]

/-! ### Runs -/

theorem runSteps_zero (s : State) : runSteps 0 s = .next s := rfl

theorem core_run_next {M : Host.Core} {s t : M.State} (h : M.step s = .next t) (k : Nat) : M.run (k + 1) s = M.run k t := by
  rw [Host.Core.run, h]

theorem runSteps_next {s t : State} (h : step s = .next t) (k : Nat) : runSteps (k + 1) s = runSteps k t :=
  core_run_next (M := Sys2Proof.core) h k

theorem core_run_fault {M : Host.Core} {s : M.State} {f : M.Fault} (h : M.step s = .fault f) (k : Nat) :
    M.run (k + 1) s = .fault f := by
  rw [Host.Core.run, h]

theorem runSteps_fault {s : State} {f : Fault} (h : step s = .fault f) (k : Nat) : runSteps (k + 1) s = .fault f :=
  core_run_fault (M := Sys2Proof.core) h k

end Sys2Proof.Machine
end

