-- ==== Sys2Proof/Laws/PerInstr.lean ====
section
/-! SUPPORT. Statements about every instruction as syntax, one lemma per constructor. -/

/-- The encoding of an instruction begins with its mnemonic's token and has one token more than its arity
(30_encoding.md R74). -/
def Sys2Proof.Laws.EncodedShape.Statement (i : Sys2Proof.Instr) : Prop :=
  (Sys2Proof.encode i).head? = some i.mnemonic.token ∧ (Sys2Proof.encode i).length = 1 + i.mnemonic.arity

namespace Sys2Proof.Laws.EncodedShape

theorem zero : Statement .zero := ⟨rfl, rfl⟩
theorem imm : Statement .imm := ⟨rfl, rfl⟩
theorem add (dest a b : Operand) : Statement (.add dest a b) := ⟨rfl, rfl⟩
theorem sub (dest a b : Operand) : Statement (.sub dest a b) := ⟨rfl, rfl⟩
theorem mult (dest a b : Operand) : Statement (.mult dest a b) := ⟨rfl, rfl⟩
theorem mulths (dest a b : Operand) : Statement (.mulths dest a b) := ⟨rfl, rfl⟩
theorem multhsu (dest a b : Operand) : Statement (.multhsu dest a b) := ⟨rfl, rfl⟩
theorem div (dest a b : Operand) : Statement (.div dest a b) := ⟨rfl, rfl⟩
theorem divs (dest a b : Operand) : Statement (.divs dest a b) := ⟨rfl, rfl⟩
theorem divuns (dest a b : Operand) : Statement (.divuns dest a b) := ⟨rfl, rfl⟩
theorem storebyte (dest src : Operand) : Statement (.storebyte dest src) := ⟨rfl, rfl⟩
theorem loadbyte (dest src : Operand) : Statement (.loadbyte dest src) := ⟨rfl, rfl⟩
theorem loadbyteun (dest src : Operand) : Statement (.loadbyteun dest src) := ⟨rfl, rfl⟩
theorem storehalf (dest a b : Operand) : Statement (.storehalf dest a b) := ⟨rfl, rfl⟩
theorem storeword (dest a b : Operand) : Statement (.storeword dest a b) := ⟨rfl, rfl⟩
theorem loadhalf (dest a b : Operand) : Statement (.loadhalf dest a b) := ⟨rfl, rfl⟩
theorem loadhalfun (dest a b : Operand) : Statement (.loadhalfun dest a b) := ⟨rfl, rfl⟩
theorem loadword (dest a b : Operand) : Statement (.loadword dest a b) := ⟨rfl, rfl⟩
theorem setlessthan (dest a b : Operand) : Statement (.setlessthan dest a b) := ⟨rfl, rfl⟩
theorem setlessthanun (dest a b : Operand) : Statement (.setlessthanun dest a b) := ⟨rfl, rfl⟩
theorem shiftleftlog (dest src : Operand) : Statement (.shiftleftlog dest src) := ⟨rfl, rfl⟩
theorem shiftrightlog (dest src : Operand) : Statement (.shiftrightlog dest src) := ⟨rfl, rfl⟩
theorem shiftrigharth (dest src : Operand) : Statement (.shiftrigharth dest src) := ⟨rfl, rfl⟩
theorem shiftleftarth (dest src : Operand) : Statement (.shiftleftarth dest src) := ⟨rfl, rfl⟩
theorem ain (src : Operand) : Statement (.ain src) := ⟨rfl, rfl⟩
theorem bin (src : Operand) : Statement (.bin src) := ⟨rfl, rfl⟩
theorem cin (src : Operand) : Statement (.cin src) := ⟨rfl, rfl⟩
theorem aout (dest : Operand) : Statement (.aout dest) := ⟨rfl, rfl⟩
theorem bout (dest : Operand) : Statement (.bout dest) := ⟨rfl, rfl⟩
theorem cout (dest : Operand) : Statement (.cout dest) := ⟨rfl, rfl⟩
theorem loada (src : Operand) : Statement (.loada src) := ⟨rfl, rfl⟩
theorem loadb (src : Operand) : Statement (.loadb src) := ⟨rfl, rfl⟩
theorem loadc (src : Operand) : Statement (.loadc src) := ⟨rfl, rfl⟩
theorem mem1in (src : Operand) : Statement (.mem1in src) := ⟨rfl, rfl⟩
theorem mem2in (src : Operand) : Statement (.mem2in src) := ⟨rfl, rfl⟩
theorem mem3in (src : Operand) : Statement (.mem3in src) := ⟨rfl, rfl⟩
theorem mem4in (src : Operand) : Statement (.mem4in src) := ⟨rfl, rfl⟩
theorem mem5in (src : Operand) : Statement (.mem5in src) := ⟨rfl, rfl⟩
theorem mem1out (dest : Operand) : Statement (.mem1out dest) := ⟨rfl, rfl⟩
theorem mem2out (dest : Operand) : Statement (.mem2out dest) := ⟨rfl, rfl⟩
theorem mem3out (dest : Operand) : Statement (.mem3out dest) := ⟨rfl, rfl⟩
theorem mem4out (dest : Operand) : Statement (.mem4out dest) := ⟨rfl, rfl⟩
theorem mem5out (dest : Operand) : Statement (.mem5out dest) := ⟨rfl, rfl⟩
theorem jump : Statement .jump := ⟨rfl, rfl⟩
theorem stall : Statement .stall := ⟨rfl, rfl⟩
theorem reset : Statement .reset := ⟨rfl, rfl⟩

end Sys2Proof.Laws.EncodedShape
end

