-- ==== Sys2Proof/Tests/Slice0.lean ====
section
/-! SUPPORT. The model's own tests, their expected results from spec/95_test_vectors.md (the vector's id stands in the
comment) or written out by hand from the rule cited; and a witness for the hypotheses of every statement that has any. -/

set_option maxRecDepth 20000

namespace Sys2Proof.Tests
open Sys2Proof Sys2Proof.Machine

/-! ### Helpers -/

/-- The tokens of a program text. -/
def tokensOf (text : String) : List Token := itemTokens (itemsOfText text.toList)

/-- What the decoder reads at the start of a program text. -/
def read (text : String) : Decoded := decode (tokensOf text)

/-- Whether a program text decodes to an instruction, with nothing after it. -/
def reads (text : String) (i : Instr) : Bool := read text == .instr i []

/-- A run about to execute a program text from a State Vector. -/
def run (x : StateVector) (text : String) : State := { State.reset with x := x, program := tokensOf text }

/-- The same under `OVERFLOW_POLICY = fault`. -/
def strict (s : State) : State := { s with cfg := { s.cfg with overflow := .fault } }

/-- The same under `RENDER_POLICY = fault`. -/
def strictRender (s : State) : State := { s with cfg := { s.cfg with render := .fault } }

/-- The same in step mode. -/
def stepping (s : State) : State := { s with cfg := { s.cfg with stepMode := true } }

/-- The next state, if there is one. -/
def next? : Host.Outcome State Fault Refusal → Option State
  | .next s => some s
  | .fault _ => none
  | .refused _ => none

/-- What an instruction leaves in a location and in the Opcode field. -/
def leaves (l : Loc) (i : Instr) (s : State) : Option (Nat × OpcodeWord) :=
  (next? (exec i s)).map fun t => (readLoc l t.x, t.x.opcode)

/-- The report an outcome ends the run with, if State Vector and pc are as before. -/
def reportOf (s : State) (o : Host.Outcome State Fault Refusal) : Option FaultReport :=
  (next? o).bind fun t =>
    match t.mode with
    | .faulted r => if t.x = s.x ∧ t.pc = s.pc then some r else none
    | .run | .awaitAck | .done => none

/-- The report an instruction ends the run with. -/
def reports (i : Instr) (s : State) : Option FaultReport := reportOf s (exec i s)

/-- The State Vector at run creation. -/
def x0 : StateVector := .initial

/-- A run at its first instruction, from a State Vector. -/
def at0 (x : StateVector) : State := { State.reset with x := x }

/-- A run at its first instruction, from run creation. -/
def start : State := at0 x0

/-- Operands: the locations, and literals by their digits. -/
def A : Operand := .loc .regA .source
def B : Operand := .loc .regB .source
def C : Operand := .loc .regC .source
def M1 : Operand := .loc .mem1 .source
def M2 : Operand := .loc .mem2 .source
def M3 : Operand := .loc .mem3 .source
def M4 : Operand := .loc .mem4 .source
def M5 : Operand := .loc .mem5 .source
def num (ds : List (Fin 10)) : Operand := .lit false ds
def neg (ds : List (Fin 10)) : Operand := .lit true ds

/-- The code of an instruction without a given code, in the configuration of the tests. -/
def opc : OpenCodes := State.reset.cfg.opc

/-! ### WellFormed refuses an ill-formed term of each kind -/

theorem test_illFormed_literal_without_digits : ¬ (Instr.ain (.lit true [])).WellFormed :=
  fun h => (h _ (.head _)) rfl
theorem test_illFormed_other_empty : ¬ (Instr.bin (.other [])).WellFormed :=
  fun h => (h _ (.head _)).1.1 rfl
theorem test_illFormed_other_with_separator : ¬ (Instr.cin (.other ['A', ',', 'B'])).WellFormed :=
  fun h => absurd ((h _ (.head _)).1.2 ',' (.tail _ (.head _))) (by decide)
theorem test_illFormed_other_is_location : ¬ (Instr.aout (.other "MEM3".toList)).WellFormed :=
  fun h => absurd (h _ (.head _)).2.1 (by decide)
theorem test_illFormed_other_is_literal : ¬ (Instr.bout (.other "-12".toList)).WellFormed :=
  fun h => absurd (h _ (.head _)).2.2 (by decide)
theorem test_illFormed_third_operand :
    ¬ (Instr.add (.loc .regA .source) (.lit false [1]) (.lit false [])).WellFormed :=
  fun h => (h _ (.tail _ (.tail _ (.head _)))) rfl
theorem test_wellFormed :
    (Instr.add (.loc .regA .upper) (.lit true [0, 7]) (.other "+3".toList)).WellFormed := by
  simp only [Instr.WellFormed, Instr.operands, List.forall_mem_cons, List.not_mem_nil, Operand.WellFormed,
    false_implies, implies_true, and_true]
  exact ⟨trivial, by decide, ⟨by decide, by simp [isSeparator]⟩, by decide, by decide⟩

/-! ### Decoding: every constructor from tokens written out from 30_encoding.md R73 and R81 -/

theorem test_decode_markers_control :
    reads "ZERO" .zero ∧ reads "IMM" .imm ∧ reads "JUMP" .jump ∧ reads "STALL" .stall ∧
    reads "RESET" .reset := by
  decide

theorem test_decode_arithmetic :
    reads "ADD RegA RegB 3" (.add (.loc .regA .source) (.loc .regB .source) (.lit false [3])) ∧
    reads "SUB RegC 1 Mem1" (.sub (.loc .regC .source) (.lit false [1]) (.loc .mem1 .source)) ∧
    reads "MULT MEM2 -1 2" (.mult (.loc .mem2 .upper) (.lit true [1]) (.lit false [2])) ∧
    reads "MULTHS REGA Mem3 2" (.mulths (.loc .regA .upper) (.loc .mem3 .source) (.lit false [2])) ∧
    reads "MULTHSU REGB Mem4 2" (.multhsu (.loc .regB .upper) (.loc .mem4 .source) (.lit false [2])) ∧
    reads "DIV REGC Mem5 2" (.div (.loc .regC .upper) (.loc .mem5 .source) (.lit false [2])) ∧
    reads "DIVS RegA MEM1 MEM3" (.divs (.loc .regA .source) (.loc .mem1 .upper) (.loc .mem3 .upper)) ∧
    reads "DIVUNS RegA MEM4 MEM5" (.divuns (.loc .regA .source) (.loc .mem4 .upper) (.loc .mem5 .upper)) := by
  decide

theorem test_decode_loadStore :
    reads "STOREBYTE Mem1 RegA" (.storebyte (.loc .mem1 .source) (.loc .regA .source)) ∧
    reads "LOADBYTE RegA Mem1" (.loadbyte (.loc .regA .source) (.loc .mem1 .source)) ∧
    reads "LOADBYTEUN RegA Mem2" (.loadbyteun (.loc .regA .source) (.loc .mem2 .source)) ∧
    reads "STOREHALF Mem1 9 8" (.storehalf (.loc .mem1 .source) (.lit false [9]) (.lit false [8])) ∧
    reads "STOREWORD Mem1 9 8" (.storeword (.loc .mem1 .source) (.lit false [9]) (.lit false [8])) ∧
    reads "LOADHALF Mem1 9 8" (.loadhalf (.loc .mem1 .source) (.lit false [9]) (.lit false [8])) ∧
    reads "LOADHALFUN Mem1 9 8" (.loadhalfun (.loc .mem1 .source) (.lit false [9]) (.lit false [8])) ∧
    reads "LOADWORD Mem1 9 8" (.loadword (.loc .mem1 .source) (.lit false [9]) (.lit false [8])) := by
  decide

theorem test_decode_compareShift :
    reads "SETLESSTHAN RegA 6 5" (.setlessthan (.loc .regA .source) (.lit false [6]) (.lit false [5])) ∧
    reads "SETLESSTHANUN RegA 6 5" (.setlessthanun (.loc .regA .source) (.lit false [6]) (.lit false [5])) ∧
    reads "SHIFTLEFTLOG RegA RegB" (.shiftleftlog (.loc .regA .source) (.loc .regB .source)) ∧
    reads "SHIFTRIGHTLOG RegA RegB" (.shiftrightlog (.loc .regA .source) (.loc .regB .source)) ∧
    reads "SHIFTRIGHARTH RegA RegB" (.shiftrigharth (.loc .regA .source) (.loc .regB .source)) ∧
    reads "SHIFTLEFTARTH RegA RegB" (.shiftleftarth (.loc .regA .source) (.loc .regB .source)) := by
  decide

theorem test_decode_register_transfers :
    reads "AIN 9" (.ain (.lit false [9])) ∧ reads "BIN RegA" (.bin (.loc .regA .source)) ∧
    reads "CIN Mem5" (.cin (.loc .mem5 .source)) ∧ reads "AOUT Mem1" (.aout (.loc .mem1 .source)) ∧
    reads "BOUT RegC" (.bout (.loc .regC .source)) ∧ reads "COUT Mem2" (.cout (.loc .mem2 .source)) ∧
    reads "LOADA Mem1" (.loada (.loc .mem1 .source)) ∧ reads "LOADB 12" (.loadb (.lit false [1, 2])) ∧
    reads "LOADC RegB" (.loadc (.loc .regB .source)) := by
  decide

theorem test_decode_memory_transfers :
    reads "MEM1IN 1" (.mem1in (.lit false [1])) ∧ reads "MEM2IN 2" (.mem2in (.lit false [2])) ∧
    reads "MEM3IN 3" (.mem3in (.lit false [3])) ∧ reads "MEM4IN 4" (.mem4in (.lit false [4])) ∧
    reads "MEM5IN 5" (.mem5in (.lit false [5])) ∧ reads "MEM1OUT RegA" (.mem1out (.loc .regA .source)) ∧
    reads "MEM2OUT RegA" (.mem2out (.loc .regA .source)) ∧ reads "MEM3OUT RegA" (.mem3out (.loc .regA .source)) ∧
    reads "MEM4OUT RegA" (.mem4out (.loc .regA .source)) ∧ reads "MEM5OUT RegA" (.mem5out (.loc .regA .source)) := by
  decide

/-- The 16 spellings (30_encoding.md R76). -/
theorem test_location_names :
    (tokensOf "RegC RegB RegA Mem5 Mem4 Mem3 Mem2 Mem1 REGC REGB REGA MEM5 MEM4 MEM3 MEM2 MEM1").map locationOf? =
      allLocNames.map some := by
  decide

/-- Vectors E2, E6, E7, E8: no location, no literal; and more tokens that R77 and R78 exclude. -/
theorem test_other_operands :
    ∀ t ∈ tokensOf "rega Opcode +3 0x10 Flags STALL - 1- Mem6 1_0", operandOf t = .other t := by
  decide

/-- Vector E9 and 30_encoding.md R77: base 10, leading zeros, minus zero. -/
theorem test_literals :
    operandOf "007".toList = .lit false [0, 0, 7] ∧ literalValue false [0, 0, 7] = 7 ∧
    operandOf "-0".toList = .lit true [0] ∧ literalValue true [0] = 0 ∧
    operandOf "-4096".toList = .lit true [4, 0, 9, 6] ∧ literalValue true [4, 0, 9, 6] = -4096 := by
  decide

/-- Vectors E3 and H-S19: a token in another case, or misspelled, is no mnemonic. -/
theorem test_not_mnemonics :
    ∀ t ∈ tokensOf "add Add SHIFTRIGHTARTH RegA 5 STALLS MULTS", mnemonicOf? t = none := by
  decide

/-- Operands are positional (30_encoding.md R72, R74): the length comes from the mnemonic alone. -/
theorem test_operands_are_positional :
    read "AIN STALL STALL" = .instr (.ain (.other "STALL".toList)) (tokensOf "STALL") ∧
    read "JUMP 5" = .instr .jump (tokensOf "5") ∧
    read "ADD RegA FOO" = .truncated .add 2 ∧ read "FOO ADD" = .notMnemonic "FOO".toList (tokensOf "ADD") ∧
    read "" = .endOfStream := by
  decide

/-- Commas and line breaks separate tokens (30_encoding.md R70, R91). -/
theorem test_program_text :
    itemsOfText "ADD RegB, RegA, 10\nZERO".toList =
      [.tok "ADD".toList, .tok "RegB".toList, .tok "RegA".toList, .tok "10".toList, .lb, .tok "ZERO".toList] := by
  decide

/-- The text layout of log 5: `ZERO` is 5A 45 52 4F and `AIN` 41 49 4E, the first character in the lowest byte. -/
theorem test_decodeTableWord :
    decodeTableWord 32 0x4F52455A = some .zero ∧ decodeTableWord 24 0x4E4941 = some (.ain (.lit false [0])) ∧
    decodeTableWord 24 0x444441 =
      some (.add (.loc .regC .source) (.lit false [0]) (.lit false [0])) ∧
    decodeTableWord 40 0x39204E4941 = some (.ain (.lit false [9])) ∧ decodeTableWord 32 0 = none := by
  decide

theorem test_withFetchWord : (next? (step (State.reset.withFetchWord 40 0x39204E4941))).map (fun t => t.x.regA) =
    some 9 := by decide

/-! ### One step of each instruction -/

/-- M3 -/
theorem test_zero : leaves .regA .zero (at0 { x0 with regA := 3 }) = some (3, 0b000000#6) := by decide
/-- M2 -/
theorem test_imm : leaves .regA .imm start = some (0, 0b000001#6) := by decide
/-- A3 -/
theorem test_add : leaves .regA (.add A (num [3]) (neg [5])) start = some (2 ^ 42 - 2, 0b000010#6) := by decide
/-- A28 -/
theorem test_add_widthViolation : reports (.add M1 (num [4, 0, 9, 5]) (num [1])) (strict start) =
    some ⟨.widthViolation 7 (some "Mem1".toList) 4096, 0, "ADD".toList⟩ := by decide
/-- A7 -/
theorem test_sub : leaves .regA (.sub A M1 (num [1])) start = some (2 ^ 42 - 1, 0b000011#6) := by decide
/-- A27 -/
theorem test_sub_widthViolation : reports (.sub A (num [3]) (num [4])) (strict start) =
    some ⟨.widthViolation 2 (some "RegA".toList) (-1), 0, "SUB".toList⟩ := by decide
/-- A8 -/
theorem test_mult : leaves .regA (.mult A (num [6, 5, 5, 3, 6]) (num [6, 5, 5, 3, 7])) start =
    some (65536, 0b000100#6) := by decide
/-- A9 -/
theorem test_mult_negative : leaves .regA (.mult A (neg [1]) (num [1])) start =
    some (2 ^ 32 - 1, 0b000100#6) := by decide
/-- A14 -/
theorem test_mulths : leaves .regA (.mulths A M1 (num [3])) (at0 { x0 with mem1 := 0xfff }) =
    some (2 ^ 42 - 3, 0b000101#6) := by decide
/-- A13 -/
theorem test_mulths_full : leaves .regA (.mulths A (num [1, 0, 0, 0, 0, 0]) (num [1, 0, 0, 0, 0, 0])) start =
    some (10 ^ 10, 0b000101#6) := by decide
/-- A17 -/
theorem test_multhsu : leaves .regA (.multhsu A M1 (num [3])) (at0 { x0 with mem1 := 0xfff }) =
    some (12285, 0b000110#6) := by decide
/-- A19 -/
theorem test_div : leaves .regA (.div A (neg [7]) (num [2])) start = some (2 ^ 42 - 3, 0b000111#6) := by decide
/-- A21 -/
theorem test_div_byZero : reports (.div A (num [5]) M3) start =
    some ⟨.divideByZero "Mem3".toList, 0, "DIV".toList⟩ := by decide
/-- A24 -/
theorem test_divs : leaves .mem3 (.divs M3 M1 M2) (strict (at0 { x0 with mem1 := 0x800, mem2 := 0xfff })) =
    some (0x800, 0b001000#6) := by decide
/-- A25 -/
theorem test_divs_byZero : reports (.divs A (num [5]) M3) start =
    some ⟨.divideByZero "Mem3".toList, 0, "DIVS".toList⟩ := by decide
/-- A26 -/
theorem test_divuns : leaves .regA (.divuns A (num [9]) (num [2])) start = some (4, 0b001001#6) := by decide
/-- A31 -/
theorem test_divuns_byZero : reports (.divuns A (num [5]) (num [0])) (strict start) =
    some ⟨.divideByZero "0".toList, 0, "DIVUNS".toList⟩ := by decide
/-- L1 -/
theorem test_storebyte : leaves .mem1 (.storebyte M1 A) (at0 { x0 with regA := 0x12345 }) =
    some (0x345, 0b010000#6) := by decide
/-- L12 -/
theorem test_storebyte_widthViolation : reports (.storebyte M1 A) (strict (at0 { x0 with regA := 0x12345 })) =
    some ⟨.widthViolation 7 (some "Mem1".toList) 74565, 0, "STOREBYTE".toList⟩ := by decide
/-- L3 -/
theorem test_loadbyte : leaves .regA (.loadbyte A M1) (at0 { x0 with mem1 := 0xfff }) =
    some (0xfff, 0b010011#6) := by decide
/-- L4 -/
theorem test_loadbyteun : leaves .regC (.loadbyteun C (num [1, 0, 0, 0])) start = some (1000, 0b010100#6) := by decide
/-- L5 -/
theorem test_storehalf : leaves .mem1 (.storehalf M1 (num [0]) (num [1])) start =
    some (0xfff, opc.storehalf) := by decide
/-- L7 -/
theorem test_storeword : leaves .mem3 (.storeword M3 A A) (at0 { x0 with regA := 9 }) =
    some (0, opc.storeword) := by decide
/-- 43_load_store.md R175: 7 - 9 at 42 bits -/
theorem test_loadhalf : leaves .regB (.loadhalf B (num [7]) (num [9])) start =
    some (2 ^ 42 - 2, opc.loadhalf) := by decide
/-- L9 -/
theorem test_loadhalfun : leaves .regC (.loadhalfun C (num [5]) (num [9])) start =
    some (2 ^ 42 - 4, opc.loadhalfun) := by decide
/-- L10 -/
theorem test_loadword : leaves .mem5 (.loadword M5 (num [4, 0, 9, 5]) (num [1])) start =
    some (4094, opc.loadword) := by decide
/-- L11 -/
theorem test_loadword_truncated : reportOf (run x0 "LOADWORD RegA") (step (run x0 "LOADWORD RegA")) =
    some ⟨.truncatedInstruction 1, 0, "LOADWORD".toList⟩ := by decide
/-- CM4 -/
theorem test_setlessthan : leaves .regA (.setlessthan A M1 M2) (at0 { x0 with mem1 := 0x800, mem2 := 1 }) =
    some (2 ^ 42 - 2049, 0b011000#6) := by decide
/-- CM6 -/
theorem test_setlessthan_fitted : leaves .mem1 (.setlessthan M1 A (num [0])) (at0 { x0 with regA := 2 ^ 42 - 1 }) =
    some (0xfff, 0b011000#6) := by decide
/-- CM5 -/
theorem test_setlessthanun : leaves .regA (.setlessthanun A M1 M2) (at0 { x0 with mem1 := 0x800, mem2 := 1 }) =
    some (2047, 0b011001#6) := by decide
/-- H-S2 -/
theorem test_shiftleftlog : leaves .regA (.shiftleftlog A M1) (at0 { x0 with mem1 := 0x806 }) =
    some (0x00c, 0b011100#6) := by decide
/-- H-S6 -/
theorem test_shiftleftlog_literal : leaves .mem1 (.shiftleftlog M1 (neg [1])) start =
    some (0xffe, 0b011100#6) := by decide
/-- H-S7 -/
theorem test_shiftrightlog : leaves .mem1 (.shiftrightlog M1 M1) (at0 { x0 with mem1 := 0x806 }) =
    some (0x403, 0b011100#6) := by decide
/-- H-S8 -/
theorem test_shiftrightlog_literal : leaves .regA (.shiftrightlog A (neg [2])) start =
    some (2 ^ 41 - 1, 0b011100#6) := by decide
/-- H-S11 -/
theorem test_shiftrigharth : leaves .regA (.shiftrigharth A M1) (at0 { x0 with mem1 := 0x806 }) =
    some (0xc03, 0b011100#6) := by decide
/-- H-S13 -/
theorem test_shiftrigharth_literal : leaves .regA (.shiftrigharth A (neg [4])) start =
    some (0x3fffffffffe, 0b011100#6) := by decide
/-- H-S15 -/
theorem test_shiftleftarth : leaves .regA (.shiftleftarth A M1) (at0 { x0 with mem1 := 0x806 }) =
    some (0x100c, 0b011101#6) := by decide
/-- H-S17 -/
theorem test_shiftleftarth_widthViolation : reports (.shiftleftarth M1 M1) (strict (at0 { x0 with mem1 := 0x806 })) =
    some ⟨.widthViolation 7 (some "Mem1".toList) 4108, 0, "SHIFTLEFTARTH".toList⟩ := by decide
/-- T1 -/
theorem test_ain : leaves .regA (.ain (num [9])) start = some (9, opc.ain) := by decide
/-- T21 -/
theorem test_ain_widthViolation : reports (.ain (num [4, 3, 9, 8, 0, 4, 6, 5, 1, 1, 1, 0, 4])) (strict start) =
    some ⟨.widthViolation 2 none (2 ^ 42), 0, "AIN".toList⟩ := by decide
/-- T2 -/
theorem test_bin : leaves .regB (.bin A) (at0 { x0 with regA := 9 }) = some (9, opc.bin) := by decide
/-- T3 -/
theorem test_cin : leaves .regC (.cin M5) (at0 { x0 with mem5 := 17 }) = some (17, opc.cin) := by decide
/-- T4 -/
theorem test_aout : leaves .mem1 (.aout M1) (at0 { x0 with regA := 0x1005 }) = some (0x005, opc.aout) := by decide
/-- T20 -/
theorem test_aout_unknownOperand : reports (.aout (num [5])) start =
    some ⟨.unknownOperand "5".toList 1, 0, "AOUT".toList⟩ := by decide
/-- T5 -/
theorem test_bout : leaves .regC (.bout C) (at0 { x0 with regB := 4 }) = some (4, opc.bout) := by decide
/-- T6 -/
theorem test_cout : leaves .mem2 (.cout M2) (at0 { x0 with regC := 4095 }) = some (4095, opc.cout) := by decide
/-- T7 -/
theorem test_loada : leaves .regA (.loada M1) (at0 { x0 with mem1 := 5 }) = some (5, 0b011111#6) := by decide
/-- T8 -/
theorem test_loadb : leaves .regB (.loadb (num [1, 2])) start = some (12, opc.loadb) := by decide
/-- T9 -/
theorem test_loadc : leaves .regC (.loadc B) (at0 { x0 with regB := 12 }) = some (12, opc.loadc) := by decide
/-- T10 -/
theorem test_mem1in : leaves .mem1 (.mem1in (num [5])) start = some (5, opc.mem1in) := by decide
/-- T11 -/
theorem test_mem2in : leaves .mem2 (.mem2in (num [4, 0, 9, 5])) start = some (4095, opc.mem2in) := by decide
/-- T12 -/
theorem test_mem3in : leaves .mem3 (.mem3in A) (at0 { x0 with regA := 0x12345 }) = some (0x345, opc.mem3in) := by decide
/-- T22 -/
theorem test_mem3in_widthViolation : reports (.mem3in A) (strict (at0 { x0 with regA := 0x12345 })) =
    some ⟨.widthViolation 5 none 74565, 0, "MEM3IN".toList⟩ := by decide
/-- T13 -/
theorem test_mem4in : leaves .mem4 (.mem4in (num [4, 0, 9, 7])) start = some (1, opc.mem4in) := by decide
/-- T14 -/
theorem test_mem5in : leaves .mem5 (.mem5in (num [1, 7])) start = some (17, opc.mem5in) := by decide
/-- T15 -/
theorem test_mem1out : leaves .regB (.mem1out B) (at0 { x0 with mem1 := 5 }) = some (5, opc.mem1out) := by decide
/-- T16 -/
theorem test_mem2out : leaves .mem1 (.mem2out M1) (at0 { x0 with mem2 := 4095 }) = some (4095, opc.mem2out) := by decide
/-- T17 -/
theorem test_mem3out : leaves .regA (.mem3out A) (at0 { x0 with mem3 := 7 }) = some (7, opc.mem3out) := by decide
/-- T18 -/
theorem test_mem4out : leaves .regC (.mem4out C) (at0 { x0 with mem4 := 8 }) = some (8, opc.mem4out) := by decide
/-- T19 -/
theorem test_mem5out : leaves .mem5 (.mem5out M5) (at0 { x0 with mem5 := 9 }) = some (9, opc.mem5out) := by decide
/-- K1 -/
theorem test_jump : (next? (exec .jump start)).map (fun t => (t.pc, t.x.opcode)) = some (1, 0b110001#6) := by decide
/-- K4 -/
theorem test_stall : (next? (exec .stall start)).map (fun t => (t.pc, t.x.opcode)) =
    some (1, 0b111110#6) := by decide
/-- S6 -/
theorem test_reset :
    (next? (exec .reset (at0 { x0 with regA := 9, mem3 := 4, opcode := 0b000010#6 }))).map (fun t => t.x) =
    some x0 := by decide

/-! ### The engine, its errors and the renderer -/

/-- E11: the destination is checked before the divisor. -/
theorem test_error_order : reports (.div (.other "FOO".toList) (num [1]) (num [0])) start =
    some ⟨.unknownOperand "FOO".toList 1, 0, "DIV".toList⟩ := by
  decide

/-- E10: the length is checked before the operands. -/
theorem test_truncation_first : reportOf (run x0 "ADD RegA FOO") (step (run x0 "ADD RegA FOO")) =
    some ⟨.truncatedInstruction 2, 0, "ADD".toList⟩ := by
  decide

/-- Program 5: a STALL in an operand position. -/
theorem test_stall_as_operand : reports (.add A B (.other "STALL".toList)) start =
    some ⟨.unknownOperand "STALL".toList 3, 0, "ADD".toList⟩ := by decide

/-- E13: a token that is no mnemonic is skipped without a render. -/
theorem test_skip : next? (step (run x0 "FOO ADD RegA 1 1")) =
    some { run x0 "FOO ADD RegA 1 1" with pc := 1 } := by decide

/-- E14: the empty stream is Done at once. It is the run from reset with nothing placed (log 2). -/
theorem test_empty_stream : next? (step State.reset) =
    some { State.reset with mode := .done, trace := [.done] } := by decide

/-- S1: the full render of ADD RegA 3 4. -/
theorem test_render : (next? (exec (.add A (num [3]) (num [4])) start)).map (fun t => t.trace) =
    some [.render ["0x00000000".toList, "0x00000000".toList, "0x00000007".toList, "0x00000000".toList,
      "0x00000000".toList, "0x00000000".toList, "0x00000000".toList, "0x00000000".toList, "0x00000002".toList,
      "0x00000000".toList, "0x00000000".toList]] := by decide

/-- R-3, R-4, S7 -/
theorem test_hexWord : hexWord 0x123456789ab = "0x456789ab".toList ∧ hexWord 0xffb = "0x00000ffb".toList ∧
    readHexWord (hexWord (2 ^ 42 - 1)) = some (2 ^ 32 - 1) := by decide

/-- R-5: RenderOverflow comes after the commit. -/
theorem test_renderOverflow :
    (next? (exec (.mulths A (num [3, 0, 0, 0, 0, 0, 0]) (num [3, 0, 0, 0, 0, 0, 0])) (strictRender start))).map
      (fun t => (t.x.regA.toNat, t.x.opcode, t.pc, t.mode)) =
    some (0x2f79cd9000, 0b000101#6, 4, .faulted ⟨.renderOverflow 2 203906977792, 0, "MULTHS".toList⟩) := by decide

/-- 60_exceptions.md R285: with both policies `fault`, the width is checked before the render. -/
theorem test_width_before_render :
    reports (.add A (num [4, 3, 9, 8, 0, 4, 6, 5, 1, 1, 1, 0, 3]) (num [1])) (strictRender (strict start)) =
    some ⟨.widthViolation 2 (some "RegA".toList) (2 ^ 42), 0, "ADD".toList⟩ := by decide

/-- ST1: an instruction pauses in step mode, and the pause waits for the acknowledgment. -/
theorem test_step_mode :
    (next? (step (stepping (run x0 "ADD RegA 3 4 FOO")))).map (fun t => (t.mode, t.pc)) = some (.awaitAck, 4) ∧
    (next? (step { stepping (run x0 "ZERO") with mode := .awaitAck, ackInput := [true] })).map (fun t => t.mode) =
      some .run ∧
    (next? (step { stepping (run x0 "ZERO") with mode := .awaitAck, ackInput := [false] })).map (fun t => t.mode) =
      some .awaitAck ∧
    (next? (step { stepping (run x0 "ZERO") with mode := .awaitAck, ackInput := [] })).map (fun t => t.mode) =
      some .awaitAck := by decide

/-- ST1: a skipped token does not pause. ST2: an early acknowledgment is ignored. -/
theorem test_no_pause :
    (next? (step (stepping (run x0 "FOO STALL")))).map (fun t => (t.mode, t.pc)) = some (.run, 1) ∧
    (next? (step { stepping (run x0 "ADD RegA 3 4") with ackInput := [true] })).map (fun t => t.mode) =
      some .awaitAck := by decide

/-! ### The annotator -/

/-- The annotated stream of a program text, written out again. -/
def annotated (minDist : Nat) (text : String) (out : String) : Bool :=
  annotate minDist (itemsOfText text.toList) == tokensOf out

/-- H2 and H3 -/
theorem test_annotate_windows :
    annotated 2 "AIN 3\nBIN 4\nAIN 5" "AIN 3 BIN 4 STALL STALL AIN 5" ∧
    annotated 2 "AIN 3\nAIN 4\nAIN 5\nAIN 6" "AIN 3 STALL STALL AIN 4 STALL STALL AIN 5 STALL STALL AIN 6" := by decide

/-- H4 and H5 -/
theorem test_annotate_markers :
    annotated 2 "ZERO\nZERO\nZERO" "ZERO ZERO STALL STALL ZERO" ∧
    annotated 2 "ADD RegA 1 2\n\nADD RegB 1 2\n" "ADD RegA 1 2 STALL STALL ADD RegB 1 2" := by decide

/-- H6, H7 and H8 -/
theorem test_annotate_distance :
    annotated 3 "AIN 3\nAIN 4" "AIN 3 AIN 4" ∧ annotated 2 "AIN 3\nAIN 4" "AIN 3 STALL STALL AIN 4" ∧
    annotated 2 "ADD RegA RegB\nRegA" "ADD RegA RegB STALL STALL RegA" := by decide

/-- The reference codes meet the constraints of 30_encoding.md R87. -/
theorem test_reference_codes : State.reset.cfg.WellFormed := by decide

/-- 30_encoding.md R87: codes that do not tell AIN from BIN are refused. -/
theorem test_codes_not_distinct :
    ¬ ({ State.reset.cfg with opc := { opc with bin := opc.ain } } : Config).WellFormed := by decide

/-! ### Witnesses: states and operands that meet the hypotheses of the statements -/

/-- Registers at the edges of their ranges. -/
def edge : StateVector :=
  { x0 with regA := 2 ^ 42 - 1, regB := 2 ^ 32, regC := 2 ^ 32 - 1, mem1 := 0xfff, mem2 := 0x800 }

/-- DecodeAfterEncode, PlacedWordRunsNext, DecodedInstructionIsWellFormed -/
theorem witness_encoding :
    (Instr.ain (.other "STALL".toList)).WellFormed ∧
    (∀ t ∈ ["AIN".toList, "STALL".toList, "RegA".toList], Token.WellFormed t) ∧
    decode ["AIN".toList, "STALL".toList, "RegA".toList] = .instr (.ain (.other "STALL".toList)) (tokensOf "RegA") ∧
    decodeTableWord 32 0x4F52455A = some .zero := by
  refine ⟨?_, by simp [Token.WellFormed, isSeparator], by decide, by decide⟩
  simp only [Instr.WellFormed, Instr.operands, List.forall_mem_cons, List.not_mem_nil, Operand.WellFormed,
    false_implies, implies_true, and_true]
  exact ⟨⟨by decide, by simp [isSeparator]⟩, by decide, by decide⟩

/-- OperandTokenClasses, third clause; and both sides of the first two are met. -/
theorem witness_operand_classes :
    (∀ l sp, "FOO".toList ≠ locName l sp) ∧
    (∀ (neg : Bool) (ds : List (Fin 10)), ds ≠ [] →
      "FOO".toList ≠ (if neg then ['-'] else []) ++ ds.map digitChar) ∧
    operandOf "MEM1".toList = .loc .mem1 .upper ∧ operandOf "-9".toList = .lit true [9] := by
  refine ⟨fun l sp => by cases l <;> cases sp <;> decide, fun neg ds h he => ?_, by decide, by decide⟩
  have := literalOf?_text (neg := neg) h
  rw [Operand.text, ← he] at this
  exact absurd this (by simp [literalOf?, digitsOf?, digitOf?])

/-- StepRunsDecodedInstruction, UnmatchedTokenIsSkipped -/
theorem witness_dispatch :
    (run x0 "ZERO").mode = .run ∧ decode ((run x0 "ZERO").program.drop (run x0 "ZERO").pc) = .instr .zero [] ∧
    (run x0 "add").program[(run x0 "add").pc]? = some "add".toList ∧
    (∀ m : Mnemonic, "add".toList ≠ m.token) := by
  refine ⟨rfl, by decide, by decide, fun m => ?_⟩
  cases m <;> decide

/-- CutOffInstructionIsTruncated, at no token and at one token too few; EndOfStreamIsDone -/
theorem witness_ends :
    (run x0 "AIN").program[0]? = some Mnemonic.ain.token ∧
    (run x0 "AIN").program.length - 1 - 0 < Mnemonic.ain.arity ∧
    (run x0 "ADD A B").program[0]? = some Mnemonic.add.token ∧
    (run x0 "ADD A B").program.length - 1 - 0 < Mnemonic.add.arity ∧
    State.reset.mode = .run ∧ State.reset.pc = State.reset.program.length := by
  decide

/-- StepStopsOnlyPastTheEnd: both sides are met past the end, neither at the end. -/
theorem witness_past_the_end :
    step { State.reset with pc := 1 } = .fault .fetchPastEnd ∧ State.reset.program.length < 1 ∧
    (next? (step State.reset)).isSome = true := by
  exact ⟨rfl, by decide, by decide⟩

/-- AcknowledgmentEndsThePauseOnly, each clause; EndedRunStaysEnded, both terminal modes -/
theorem witness_modes :
    (∃ s : State, s.mode = .awaitAck ∧ s.ackInput = true :: []) ∧
    (∃ s : State, s.mode = .awaitAck ∧ s.ackInput = false :: []) ∧
    (∃ s : State, s.mode = .awaitAck ∧ s.ackInput = []) ∧ start.mode = .run ∧
    Mode.done.terminal = true ∧ (Mode.faulted ⟨.divideByZero "0".toList, 0, "DIV".toList⟩).terminal = true :=
  ⟨⟨{ start with mode := .awaitAck, ackInput := [true] }, rfl, rfl⟩,
    ⟨{ start with mode := .awaitAck, ackInput := [false] }, rfl, rfl⟩,
    ⟨{ start with mode := .awaitAck }, rfl, rfl⟩, rfl, rfl, rfl⟩

/-- The clause `rendered` of every rule, MarkersWriteTheOpcodeFieldOnly, MemoryOutNeverViolatesWidth: under `low32`
whatever the registers hold; under `fault` with a register at the last value accepted. -/
theorem witness_rendered :
    Renderable start.cfg edge ∧ Renderable (strictRender start).cfg { x0 with regA := 2 ^ 32 - 1 } := by
  exact ⟨.inl rfl, .inr (by decide)⟩

/-- The clause `overflowed` of every rule: the first value refused, behind one that is accepted. -/
theorem witness_overflowed :
    (strictRender start).cfg.render = .fault ∧
    FirstOver { x0 with regC := 2 ^ 32 - 1, regB := 2 ^ 32 } 1 (2 ^ 32) := by
  exact ⟨rfl, rfl, le_refl _, by decide⟩

/-- The clauses `badDest`, `badFirst`, `badSecond` and `badSource` of the instruction rules: a literal and an "other" token
as a destination; a location and a literal before an "other" token. -/
theorem witness_bad_operands :
    (∀ d sp, num [7] ≠ .loc d sp) ∧ (∀ d sp, Operand.other "FOO".toList ≠ .loc d sp) ∧
    valueOf x0 A = some (.loc .regA 0) ∧ valueOf x0 (neg [5]) = some (.lit (-5)) := by
  refine ⟨fun _ _ h => ?_, fun _ _ h => ?_, by decide, by decide⟩ <;> cases h

/-- The clauses `byZero` and `result` of the division rules: a zero literal, a zero location, and a divisor that is not. -/
theorem witness_divisors :
    valueOf x0 M3 = some (.loc .mem3 0) ∧ (Resolved.loc .mem3 0).uv = 0 ∧ (Resolved.loc .mem3 0).sv = 0 ∧
    valueOf x0 (neg [0]) = some (.lit 0) ∧ (Resolved.lit 0).uv = 0 ∧
    valueOf edge M1 = some (.loc .mem1 4095) ∧ (Resolved.loc .mem1 4095).uv = 4095 ∧
    (Resolved.loc .mem1 4095).sv = -1 := by
  decide

/-- The clauses `fits` and `tooWide` of every rule, at the ends of a destination's range; StoredResultIsFitted -/
theorem witness_fits :
    Fits start.cfg .mem1 (-1) ∧ Fits (strict start).cfg .mem1 0 ∧ Fits (strict start).cfg .mem1 4095 ∧
    ¬ Fits (strict start).cfg .mem1 4096 ∧ ¬ Fits (strict start).cfg .mem1 (-1) ∧
    Fits (strict start).cfg .regA (2 ^ 42 - 1) ∧ ¬ Fits (strict start).cfg .regA (2 ^ 42) := by
  decide

/-- LoadsAreAliasesOfTheInTransfers; OnlyTheTargetLocationChanges, NoInstructionWritesFlags,
OneRenderRecordPerInstruction, PcAdvancesPastTheInstruction: an instruction that commits, with a location it does not
target. -/
theorem witness_commit :
    ∃ t, exec (.ain (num [9])) start = .next t ∧ Safe t ∧ Instr.ain (num [9]) ≠ .reset ∧
      targetOf? (.ain (num [9])) ≠ some .regB := by
  refine ⟨_, rfl, ?_, by decide, by decide⟩
  intro r h
  cases h

/-- OneRenderRecordPerInstruction, DefaultPoliciesRaiseThreeErrors: a step that ends in an error. -/
theorem witness_error :
    ∃ t r, step (run x0 "AIN") = .next t ∧ t.mode = .faulted r ∧ (run x0 "AIN").mode = .run ∧
      (run x0 "AIN").cfg.overflow = .truncate ∧ (run x0 "AIN").cfg.render = .low32 :=
  ⟨_, _, rfl, rfl, rfl, rfl, rfl⟩

/-- ShiftsAreBitVectorShifts and RenderRoundTrip at the ends of their ranges. -/
theorem witness_ranges : 0 < 1 ∧ 0 < widthOf .regA ∧ 2 ^ 32 - 1 < 2 ^ 32 ∧ ¬ 2 ^ 32 < 2 ^ 32 := by decide

/-- A run about to execute some tokens meets the invariant. -/
theorem inv_of_tokens (ts : List Token) : MachineInv { State.reset with program := ts } where
  pcInStream := Nat.zero_le _
  reservedZero := rfl
  flagsZero := rfl
  opcodeKnown := ⟨.reset, rfl⟩
  pauseInStepMode h := by cases h
  doneAtEnd h := by cases h
  traceForm := ⟨[], rfl, fun _ => .inl ⟨rfl, rfl⟩⟩
  renderable _ _ := fun v hv => (by decide : ∀ v ∈ fieldValues x0, v < 2 ^ 32) v hv
  report _ h := by cases h
  codesDistinct := test_reference_codes

/-- ArityZeroRaisesNoError, StepKeepsInvariant, ProgramAndConfigurationAreFixed -/
theorem witness_invariant :
    Mnemonic.jump.arity = 0 ∧ MachineInv (run x0 "JUMP") ∧ (run x0 "JUMP").mode = .run ∧
    ∃ t, step (run x0 "JUMP") = .next t :=
  ⟨rfl, inv_of_tokens _, rfl, _, rfl⟩

/-- NoInstructionReadsControlFields: two states that differ in all the fields it names. -/
theorem witness_sameButControl :
    SameButControl start (at0 { x0 with opcode := 0, reserved := 1, flags := 15 }) ∧ ∃ t, step start = .next t :=
  ⟨⟨fun l => by cases l <;> rfl, rfl, rfl, rfl, rfl, rfl⟩, _, rfl⟩

/-- RunEndsWithinTheStream -/
theorem witness_run_ends :
    (run x0 "ZERO").cfg.stepMode = false ∧ (run x0 "ZERO").mode = .run ∧
    (run x0 "ZERO").pc ≤ (run x0 "ZERO").program.length := by
  exact ⟨rfl, rfl, Nat.zero_le _⟩

/-- RunCreationValues, InvariantAtRunCreation, TransferCodesAreDistinct: codes that meet the constraints and are not the
reference ones. -/
theorem witness_codes :
    ({ State.reset.cfg with opc := { opc with ain := 0, aout := 0, loadb := 0, mem5out := 0 } } : Config).WellFormed ∧
    MachineInv (run x0 "AIN 1") ∧ [Mnemonic.ain, .bin, .cin] ∈ [[Mnemonic.ain, .bin, .cin], [.aout, .bout, .cout]] :=
  ⟨by decide, inv_of_tokens _, .head _⟩

/-- The items of vector H6 and H7: `AIN 3 / AIN 4`. -/
def twoAins : List Item := [.tok "AIN".toList, .tok "3".toList, .lb, .tok "AIN".toList, .tok "4".toList]

/-- ScanInsertsExactlyAtTriggers, each clause: H7 triggers at the marker, at the edge of the distance; H6, one more apart,
does not, nor does a token; the end is past the last item. -/
theorem witness_triggers :
    Triggers 2 twoAins (-1) 2 ∧ (2 < twoAins.length ∧ ¬ Triggers 3 twoAins (-1) 2) ∧
    (4 < twoAins.length ∧ ¬ Triggers 2 twoAins (-1) 4) ∧ twoAins.length ≤ 5 := by
  refine ⟨⟨rfl, by decide, _, rfl, 2, by decide, by decide, rfl⟩, ⟨by decide, fun h => ?_⟩, ⟨by decide, fun h => ?_⟩,
    by decide⟩
  · exact absurd h.2.1 (by decide)
  · exact absurd h.1 (by decide)

/-- StallsLandAtDispatchPositions -/
theorem witness_whole_lines : ∀ line ∈ [tokensOf "AIN 3", tokensOf "AIN 4"], WholeLine line := by
  intro line h
  simp only [List.mem_cons, List.not_mem_nil, or_false] at h
  rcases h with rfl | rfl
  · exact ⟨.ain (num [3]), by decide⟩
  · exact ⟨.ain (num [4]), by decide⟩

/-- StallsChangeNoLocation: a stream and the same with a STALL inserted, and the first one's whole run. -/
theorem witness_stalls :
    ∃ s', (run x0 "ZERO").cfg.stepMode = false ∧ MachineInv (run x0 "ZERO") ∧ MachineInv (run x0 "STALL ZERO") ∧
      (run x0 "ZERO").mode = .run ∧ (run x0 "STALL ZERO").mode = .run ∧
      (run x0 "STALL ZERO").cfg = (run x0 "ZERO").cfg ∧
      StallExpansion ((run x0 "ZERO").program.drop 0) ((run x0 "STALL ZERO").program.drop 0) ∧
      runSteps 2 (run x0 "ZERO") = .next s' ∧ s'.mode.terminal = true :=
  ⟨_, rfl, inv_of_tokens _, inv_of_tokens _, rfl, rfl, rfl,
    .stall (.instr (i := .zero) (ts := ["ZERO".toList]) rfl .nil), rfl, rfl⟩

end Sys2Proof.Tests
end

section
/-! PROOFS. The statements of 10_state.md, and the laws about completion and the step that they rest on. -/

namespace Sys2Proof.Machine

/-! ### One equation per case of the step -/

@[simp] theorem fetch_nextInput (s : State) : fetch (nextInput s) = fetch s := rfl

theorem step_run {s : State} (h : s.mode = .run) : step s = stepRun (nextInput s) := by
  simp only [step, cycle, h]

theorem step_instr {s : State} {i : Instr} {rest : List Token} (h : s.mode = .run) (hf : fetch s = .instr i rest) :
    step s = exec i (nextInput s) := by
  simp only [step_run h, stepRun, fetch_nextInput, hf]

theorem step_notMnemonic {s : State} {t : Token} {rest : List Token} (h : s.mode = .run)
    (hf : fetch s = .notMnemonic t rest) : step s = .next (skipToken (nextInput s)) := by
  simp only [step_run h, stepRun, fetch_nextInput, hf]

theorem step_truncated {s : State} {m : Mnemonic} {k : Nat} (h : s.mode = .run) (hf : fetch s = .truncated m k) :
    step s = .next (afterError (nextInput s) m.token (.truncatedInstruction k)) := by
  simp only [step_run h, stepRun, fetch_nextInput, hf, takeError_eq_afterError]

theorem step_at_end {s : State} (h : s.mode = .run) (hf : fetch s = .endOfStream) (hl : s.pc ≤ s.program.length) :
    step s = .next (endRun (nextInput s)) := by
  simp [step_run h, stepRun, hf, hl]

theorem step_past_end {s : State} (h : s.mode = .run) (hf : fetch s = .endOfStream) (hl : s.program.length < s.pc) :
    step s = .fault .fetchPastEnd := by
  simp [step_run h, stepRun, hf, Nat.not_le.mpr hl]

theorem step_awaitAck {s : State} (h : s.mode = .awaitAck) : step s = .next (awaitStep s) := by
  simp only [step, cycle, h]

theorem step_terminal {s : State} (h : s.mode.terminal = true) : step s = .next s := by
  cases hm : s.mode with
  | run | awaitAck => rw [hm] at h; cases h
  | done | faulted => simp only [step, cycle, hm]

/-- The decoder finds the end of the stream exactly where no token is left. -/
theorem fetch_eq_endOfStream {s : State} : fetch s = .endOfStream ↔ s.program.length ≤ s.pc := by
  rw [← List.drop_eq_nil_iff, fetch]
  constructor
  · intro h
    rcases decode_cases (s.program.drop s.pc) with ⟨hn, -⟩ | ⟨_, _, -, -, hd⟩ | ⟨_, _, -, -, hd⟩ | ⟨_, _, _, -, -, hd⟩
    · exact hn
    all_goals rw [h] at hd; cases hd
  · intro h
    rw [h, decode_nil]

/-! ### What completion leaves in each field -/

theorem complete_of_renderable {m : Mnemonic} {x : StateVector} {s : State}
    (h : Renderable s.cfg (committed s.cfg m x)) : complete m x s = afterCommit s m.arity (committed s.cfg m x) :=
  Host.Outcome.next.inj ((complete_commitsTo m x s).rendered h)

theorem complete_of_firstOver {m : Mnemonic} {x : StateVector} {s : State} {slot v : Nat} (hc : s.cfg.render = .fault)
    (h : FirstOver (committed s.cfg m x) slot v) :
    complete m x s = afterOverflow s m.token m.arity (committed s.cfg m x) slot v :=
  Host.Outcome.next.inj ((complete_commitsTo m x s).overflowed hc slot v h)

@[simp] theorem complete_x (m : Mnemonic) (x : StateVector) (s : State) :
    (complete m x s).x = committed s.cfg m x := by
  rcases complete_cases m x s with ⟨-, h⟩ | ⟨-, _, _, -, h⟩ <;> rw [h] <;> rfl

/-- Every instruction answers a next state. -/
theorem exec_next (i : Instr) (s : State) : ∃ t, exec i s = .next t := by
  rcases exec_cases i s with ⟨_, -, h⟩ | ⟨_, h, -⟩ <;> exact ⟨_, h⟩

/-- RESET raises no error of code 1 to 4: it completes with the initial State Vector (46_control.md R242). -/
theorem exec_reset (s : State) : exec .reset s = .next (complete .reset .initial s) := rfl

/-! ### The Opcode, reserved and Flags fields and the trace are not read -/

/-- The values of the fields are those of the locations, then those of the three control fields. -/
theorem fieldValues_eq_append (x : StateVector) :
    fieldValues x = allLocs.map (readLoc · x) ++ [x.opcode.toNat, x.reserved.toNat, x.flags.toNat] := rfl

theorem controlValues_lt (x : StateVector) : ∀ v ∈ [x.opcode.toNat, x.reserved.toNat, x.flags.toNat], v < 2 ^ 32 := by
  have ho := x.opcode.isLt
  have hr := x.reserved.isLt
  have hf := x.flags.isLt
  simp only [List.forall_mem_cons, List.not_mem_nil, false_imp_iff, implies_true, and_true]
  omega

/-- Values below 2^32 at the end of a list are never the first over it. -/
theorem firstOver_append_small {ws : List Nat} (h : ∀ w ∈ ws, w < 2 ^ 32) (vs : List Nat) (k : Nat) :
    firstOver k (vs ++ ws) = firstOver k vs := by
  induction vs generalizing k with
  | nil => exact firstOver_eq_none.mpr h
  | cons v vs ih => simp only [List.cons_append, firstOver, ih]

section
variable {x y : StateVector} (h : ∀ l, readLoc l x = readLoc l y)
include h

theorem firstOver_fieldValues_congr (k : Nat) : firstOver k (fieldValues x) = firstOver k (fieldValues y) := by
  simp only [fieldValues_eq_append, firstOver_append_small (controlValues_lt _), h]

/-- The slot RenderOverflow reports, and its value, depend on the locations only: a control field is too narrow to be over. -/
theorem firstOver_congr {slot v : Nat} (hx : FirstOver x slot v) : FirstOver y slot v := by
  obtain ⟨hv, hle, hlow⟩ := hx
  have hf := firstOver_of_FirstOver (k := 0) hv hle hlow
  rw [firstOver_fieldValues_congr h, Nat.zero_add] at hf
  exact (firstOver_eq_some hf).2

theorem renderable_congr {cfg : Config} (hx : Renderable cfg x) : Renderable cfg y :=
  hx.imp_right fun hs => (fields_small_iff y).mpr fun l => h l ▸ (fields_small_iff x).mp hs l

theorem readLoc_writeLoc_congr (d : Loc) (v : Nat) (l : Loc) :
    readLoc l (writeLoc d v x) = readLoc l (writeLoc d v y) := by
  simp only [readLoc_writeLoc, h]

end

namespace SameButControl

section
variable {s t : State} (h : SameButControl s t)
include h

theorem fetch : fetch s = fetch t := by
  simp only [Machine.fetch, h.program, h.pc]

theorem nextInput : SameButControl (nextInput s) (nextInput t) where
  locs := h.locs
  pc := h.pc
  mode := h.mode
  program := h.program
  cfg := h.cfg
  ackInput := congrArg List.tail h.ackInput

theorem skipToken : SameButControl (skipToken s) (skipToken t) where
  locs := h.locs
  pc := congrArg (· + 1) h.pc
  mode := h.mode
  program := h.program
  cfg := h.cfg
  ackInput := h.ackInput

theorem endRun : SameButControl (endRun s) (endRun t) where
  locs := h.locs
  pc := h.pc
  mode := rfl
  program := h.program
  cfg := h.cfg
  ackInput := h.ackInput

theorem acknowledge : SameButControl (acknowledge s) (acknowledge t) where
  locs := by simpa using h.locs
  pc := by simpa using h.pc
  mode := by simp [h.mode]
  program := by simpa using h.program
  cfg := by simpa using h.cfg
  ackInput := by simpa using h.ackInput

theorem awaitStep : SameButControl (awaitStep s) (awaitStep t) := by
  have ha : ackArrives s = ackArrives t := congrArg (List.headD · false) h.ackInput
  unfold Machine.awaitStep
  rw [ha]
  split
  · exact h.nextInput.acknowledge
  · exact h.nextInput

theorem afterError (m : Token) (e : CoreError) : SameButControl (afterError s m e) (afterError t m e) where
  locs := h.locs
  pc := h.pc
  mode := by simp only [Machine.afterError, h.pc]
  program := h.program
  cfg := h.cfg
  ackInput := h.ackInput

theorem afterCommit (n : Nat) {x y : StateVector} (hxy : ∀ l, readLoc l x = readLoc l y) :
    SameButControl (afterCommit s n x) (afterCommit t n y) where
  locs := hxy
  pc := congrArg (· + (1 + n)) h.pc
  mode := by simp only [Machine.afterCommit, h.cfg, h.mode]
  program := h.program
  cfg := h.cfg
  ackInput := h.ackInput

theorem afterOverflow (m : Token) (n : Nat) {x y : StateVector} (hxy : ∀ l, readLoc l x = readLoc l y) (slot v : Nat) :
    SameButControl (afterOverflow s m n x slot v) (afterOverflow t m n y slot v) where
  locs := hxy
  pc := congrArg (· + (1 + n)) h.pc
  mode := by simp only [Machine.afterOverflow, h.pc]
  program := h.program
  cfg := h.cfg
  ackInput := h.ackInput

/-- The renders accept both State Vectors or report the same slot of both. -/
theorem complete (m : Mnemonic) {x y : StateVector} (hxy : ∀ l, readLoc l x = readLoc l y) :
    SameButControl (complete m x s) (complete m y t) := by
  have hc : ∀ l, readLoc l (committed s.cfg m x) = readLoc l (committed t.cfg m y) := by simpa using hxy
  rcases complete_cases m x s with ⟨hr, hs⟩ | ⟨hp, slot, v, hf, hs⟩
  · rw [hs, complete_of_renderable (h.cfg ▸ renderable_congr hc hr)]
    exact h.afterCommit _ hc
  · rw [hs, complete_of_firstOver (h.cfg ▸ hp) (firstOver_congr hc hf)]
    exact h.afterOverflow _ _ hc slot v

end

end SameButControl

/-- Both outcomes are next states, which differ in the control fields and the trace at most. -/
def SameNext (o p : Host.Outcome State Fault Refusal) : Prop :=
  ∃ s t, o = .next s ∧ p = .next t ∧ SameButControl s t

theorem SameButControl.sameNext {s t : State} (h : SameButControl s t) : SameNext (.next s) (.next t) :=
  ⟨s, t, rfl, rfl, h⟩

theorem perform_sameNext {s t : State} (h : SameButControl s t) (m : Mnemonic) (dest : Option Token)
    (res : Except CoreError Effect) : SameNext (perform m dest res s) (perform m dest res t) := by
  rcases res with e | ⟨d, r⟩ | _ | _
  · exact (h.afterError m.token e).sameNext
  · simp only [perform, ← h.cfg]
    cases fit s.cfg d dest r with
    | error e => exact (h.afterError m.token e).sameNext
    | ok v => exact (h.complete m (readLoc_writeLoc_congr h.locs d v)).sameNext
  · exact (h.complete m h.locs).sameNext
  · exact (h.complete m fun _ => rfl).sameNext

theorem exec_sameNext {s t : State} (h : SameButControl s t) (i : Instr) : SameNext (exec i s) (exec i t) := by
  obtain ⟨dest, res, hop, -, he⟩ := exec_as_perform i
  rw [he, he, hop.congr _ _ h.locs]
  exact perform_sameNext h _ _ _

/-- Two states that differ in the control fields and the trace at most take such steps, or both are past the end. -/
theorem step_sameNext {s t : State} (h : SameButControl s t) :
    SameNext (step s) (step t) ∨ (step s = .fault .fetchPastEnd ∧ step t = .fault .fetchPastEnd) := by
  have hf := h.fetch
  rcases step_cases s with ⟨hm, i, rest, hi, hs⟩ | ⟨hm, ⟨u, rest, hu⟩, hs⟩ | ⟨hm, m, k, hk, hs⟩ | ⟨hm, he, hl, hs⟩ |
    ⟨hm, he, hl, hs⟩ | ⟨hm, hs⟩ | ⟨hm, hs⟩
  · rw [hs, step_instr (h.mode ▸ hm) (hf ▸ hi)]
    exact .inl (exec_sameNext h.nextInput i)
  · rw [hs, step_notMnemonic (h.mode ▸ hm) (hf ▸ hu)]
    exact .inl h.nextInput.skipToken.sameNext
  · rw [hs, step_truncated (h.mode ▸ hm) (hf ▸ hk)]
    exact .inl (h.nextInput.afterError _ _).sameNext
  · rw [hs, step_at_end (h.mode ▸ hm) (hf ▸ he) (h.pc ▸ h.program ▸ hl)]
    exact .inl h.nextInput.endRun.sameNext
  · exact .inr ⟨hs, step_past_end (h.mode ▸ hm) (hf ▸ he) (h.pc ▸ h.program ▸ hl)⟩
  · rw [hs, step_awaitAck (h.mode ▸ hm)]
    exact .inl h.awaitStep.sameNext
  · rw [hs, step_terminal (h.mode ▸ hm)]
    exact .inl h.sameNext

/-- Settles O48: the operations, Fit and the choice between the render's outcomes read the locations only. -/
theorem noInstructionReadsControlFields : Obligations.NoInstructionReadsControlFields := by
  intro s t h
  rcases step_sameNext h with ⟨_, t', hs, ht, hst⟩ | ⟨hs, ht⟩ <;> rw [hs, ht]
  · exact ⟨fun u hu => ⟨t', rfl, Host.Outcome.next.inj hu ▸ hst⟩, nofun⟩
  · exact ⟨nofun, fun _ hf => hf⟩

/-! ### Where a step stops -/

/-- A step faults past the end of the stream in mode Run, and answers a next state everywhere else. -/
theorem step_next_or_past_end (s : State) :
    ((s.mode = .run ∧ s.program.length < s.pc) ∧ step s = .fault .fetchPastEnd) ∨
    (¬ (s.mode = .run ∧ s.program.length < s.pc) ∧ ∃ t, step s = .next t) := by
  by_cases h : s.mode = .run ∧ s.program.length < s.pc
  · exact .inl ⟨h, step_past_end h.1 (fetch_eq_endOfStream.mpr h.2.le) h.2⟩
  · refine .inr ⟨h, ?_⟩
    rcases step_cases s with ⟨-, i, _, -, hs⟩ | ⟨-, -, hs⟩ | ⟨-, _, _, -, hs⟩ | ⟨-, -, -, hs⟩ | ⟨hm, -, hl, -⟩ |
      ⟨-, hs⟩ | ⟨-, hs⟩
    · exact hs ▸ exec_next i _
    · exact ⟨_, hs⟩
    · exact ⟨_, hs⟩
    · exact ⟨_, hs⟩
    · exact absurd ⟨hm, hl⟩ h
    · exact ⟨_, hs⟩
    · exact ⟨_, hs⟩

/-- Settles O12: every instruction answers a next state, so that only the fetch past the end stops a step. -/
theorem stepStopsOnlyPastTheEnd : Obligations.StepStopsOnlyPastTheEnd := by
  constructor
  · intro s r
    rcases step_next_or_past_end s with ⟨-, hs⟩ | ⟨-, t, hs⟩ <;> rw [hs] <;> nofun
  · intro s f
    rcases step_next_or_past_end s with ⟨hp, hs⟩ | ⟨hp, t, hs⟩ <;> rw [hs]
    · exact ⟨fun hf => ⟨(Host.Outcome.fault.inj hf).symm, hp⟩, fun ⟨hf, _⟩ => hf ▸ rfl⟩
    · exact ⟨nofun, fun ⟨_, hp'⟩ => absurd hp' hp⟩

/-! ### The reserved and Flags fields are not written -/

theorem exec_keeps_reserved_and_flags {i : Instr} {s t : State} (hi : i ≠ .reset) (h : exec i s = .next t) :
    t.x.flags = s.x.flags ∧ t.x.reserved = s.x.reserved := by
  rcases exec_cases i s with ⟨e, -, he⟩ | ⟨x, he, hx⟩ <;> obtain rfl := Host.Outcome.next.inj (he.symm.trans h)
  · exact ⟨rfl, rfl⟩
  · rcases hx with rfl | ⟨hr, -⟩ | ⟨d, r, -, -, rfl⟩
    · simp
    · exact absurd hr hi
    · simp

/-- Settles O39: an instruction but RESET leaves both fields as they were; RESET loads the initial State Vector. -/
theorem noInstructionWritesFlags : Obligations.NoInstructionWritesFlags := by
  refine fun i s t h => ⟨fun hi => exec_keeps_reserved_and_flags hi h, ?_⟩
  rintro rfl
  obtain rfl := Host.Outcome.next.inj ((exec_reset s).symm.trans h)
  rw [complete_x]
  exact ⟨rfl, rfl⟩

/-! ### The program and the configuration are fixed, and the trace only grows -/

/-- `t` comes after `s` in one run: the run's stream and configuration are kept, and the trace has grown at most
(10_state.md R34 to R36). -/
structure Continues (s t : State) : Prop where
  program : t.program = s.program
  cfg : t.cfg = s.cfg
  trace : s.trace <+: t.trace

theorem continues_of_append {s t : State} {es : List TraceEvent} (hp : t.program = s.program) (hc : t.cfg = s.cfg)
    (ht : t.trace = s.trace ++ es) : Continues s t :=
  ⟨hp, hc, es, ht.symm⟩

theorem Continues.refl (s : State) : Continues s s := ⟨rfl, rfl, List.prefix_rfl⟩

theorem afterError_continues (s : State) (m : Token) (e : CoreError) : Continues s (afterError s m e) :=
  continues_of_append rfl rfl rfl

theorem complete_continues (m : Mnemonic) (x : StateVector) (s : State) : Continues s (complete m x s) := by
  rcases complete_cases m x s with ⟨-, h⟩ | ⟨-, slot, v, -, h⟩ <;> rw [h] <;> exact continues_of_append rfl rfl rfl

theorem exec_continues {i : Instr} {s t : State} (h : exec i s = .next t) : Continues s t := by
  rcases exec_cases i s with ⟨e, -, he⟩ | ⟨x, he, -⟩ <;> obtain rfl := Host.Outcome.next.inj (he.symm.trans h)
  · exact afterError_continues s _ e
  · exact complete_continues _ x s

theorem awaitStep_continues (s : State) : Continues s (awaitStep s) := by
  unfold awaitStep
  split <;> constructor <;> simp

theorem step_continues {s t : State} (h : step s = .next t) : Continues s t := by
  rcases step_cases s with ⟨-, i, _, -, hs⟩ | ⟨-, -, hs⟩ | ⟨-, m, k, -, hs⟩ | ⟨-, -, -, hs⟩ | ⟨-, -, -, hs⟩ |
    ⟨-, hs⟩ | ⟨-, hs⟩ <;> rw [hs] at h
  · obtain ⟨hp, hc, ht⟩ := exec_continues h
    exact ⟨hp, hc, ht⟩
  all_goals cases h
  · exact ⟨rfl, rfl, List.prefix_rfl⟩
  · exact continues_of_append rfl rfl rfl
  · exact continues_of_append rfl rfl rfl
  · exact awaitStep_continues s
  · exact .refl s

/-- Settles O47, from what one step of each kind does. -/
theorem programAndConfigurationAreFixed : Obligations.ProgramAndConfigurationAreFixed := by
  intro s t h
  obtain ⟨hp, hc, ht⟩ := step_continues h
  exact ⟨hp, hc, ht⟩

/-! ### The end of a run, and its beginning -/

/-- Settles O14, by induction on the number of steps. -/
theorem endedRunStaysEnded : Obligations.EndedRunStaysEnded := by
  intro k s h
  induction k with
  | zero => exact runSteps_zero s
  | succ k ih => rw [runSteps_next (step_terminal h), ih]

/-- Reset is the run creation with the default configuration and nothing to run. -/
theorem reset_eq_createRun (ok : Config.default.WellFormed) : State.reset = createRun .default ok [] [] := rfl

theorem default_wellFormed : Config.default.WellFormed := by decide

theorem createRun_inv (cfg : Config) (ok : cfg.WellFormed) (raw : List Item) (acks : List Bool) :
    MachineInv (createRun cfg ok raw acks) where
  codesDistinct := ok
  pcInStream := Nat.zero_le _
  reservedZero := rfl
  flagsZero := rfl
  opcodeKnown := ⟨.reset, rfl⟩
  pauseInStepMode := nofun
  doneAtEnd := nofun
  traceForm := ⟨[], rfl, fun _ => .inl ⟨rfl, rfl⟩⟩
  renderable _ _ := by rw [createRun_x]; decide
  report := nofun

/-- Settles O45: reset is one of the run creations, and each of them meets the invariant. -/
theorem invariantAtRunCreation : Obligations.InvariantAtRunCreation :=
  ⟨reset_eq_createRun default_wellFormed ▸ createRun_inv _ _ _ _, createRun_inv⟩

end Sys2Proof.Machine
end

section
/-! PROOFS. The statements of 30_encoding.md, and the laws of the decoder and of the tokens fetched that they rest on. -/

namespace Sys2Proof

/-! ### One equation of the decoder per number of operands -/

section
variable {t : Token} {m : Mnemonic} (ht : mnemonicOf? t = some m)
include ht

theorem decode_of0 {i : Instr} (hm : maker m = .of0 i) (rest : List Token) : decode (t :: rest) = .instr i rest := by
  simp only [decode, ht, hm]

theorem decode_of1 {f : Operand → Instr} (hm : maker m = .of1 f) (a : Token) (rest : List Token) :
    decode (t :: a :: rest) = .instr (f (operandOf a)) rest := by
  simp only [decode, ht, hm]

theorem decode_of2 {f : Operand → Operand → Instr} (hm : maker m = .of2 f) (a b : Token) (rest : List Token) :
    decode (t :: a :: b :: rest) = .instr (f (operandOf a) (operandOf b)) rest := by
  simp only [decode, ht, hm]

theorem decode_of3 {f : Operand → Operand → Operand → Instr} (hm : maker m = .of3 f) (a b c : Token)
    (rest : List Token) :
    decode (t :: a :: b :: c :: rest) = .instr (f (operandOf a) (operandOf b) (operandOf c)) rest := by
  simp only [decode, ht, hm]

end

/-- Every instruction is what its mnemonic makes of its operands. -/
theorem Instr.made (i : Instr) :
    (maker i.mnemonic = .of0 i ∧ i.operands = []) ∨
    (∃ f a, maker i.mnemonic = .of1 f ∧ i = f a ∧ i.operands = [a]) ∨
    (∃ f a b, maker i.mnemonic = .of2 f ∧ i = f a b ∧ i.operands = [a, b]) ∨
    (∃ f a b c, maker i.mnemonic = .of3 f ∧ i = f a b c ∧ i.operands = [a, b, c]) := by
  cases i with
  | zero | imm | jump | stall | reset => exact .inl ⟨rfl, rfl⟩
  | ain o | bin o | cin o | aout o | bout o | cout o | loada o | loadb o | loadc o | mem1in o | mem2in o | mem3in o
  | mem4in o | mem5in o | mem1out o | mem2out o | mem3out o | mem4out o | mem5out o =>
    exact .inr (.inl ⟨_, o, rfl, rfl, rfl⟩)
  | storebyte d o | loadbyte d o | loadbyteun d o | shiftleftlog d o | shiftrightlog d o | shiftrigharth d o
  | shiftleftarth d o =>
    exact .inr (.inr (.inl ⟨_, d, o, rfl, rfl, rfl⟩))
  | add d a b | sub d a b | mult d a b | mulths d a b | multhsu d a b | div d a b | divs d a b | divuns d a b
  | storehalf d a b | storeword d a b | loadhalf d a b | loadhalfun d a b | loadword d a b | setlessthan d a b
  | setlessthanun d a b =>
    exact .inr (.inr (.inr ⟨_, d, a, b, rfl, rfl, rfl⟩))

/-! ### Decode and encode -/

/-- Settles O2: an instruction is what its mnemonic makes of its operands, and each well-formed operand is read back. -/
theorem decodeAfterEncode : Obligations.DecodeAfterEncode := by
  intro i rest hw
  have hm := mnemonicOf?_token i.mnemonic
  have ho : ∀ o ∈ i.operands, operandOf o.text = o := fun o h => operandOf_text (hw o h)
  rw [encode]
  rcases i.made with ⟨hk, hl⟩ | ⟨f, a, hk, hi, hl⟩ | ⟨f, a, b, hk, hi, hl⟩ | ⟨f, a, b, c, hk, hi, hl⟩ <;> rw [hl] at ho ⊢
  · exact decode_of0 hm hk rest
  · simpa [ho, ← hi] using decode_of1 hm hk a.text rest
  · simpa [ho, ← hi] using decode_of2 hm hk a.text b.text rest
  · simpa [ho, ← hi] using decode_of3 hm hk a.text b.text c.text rest

/-- What the decoder reads an instruction from: its mnemonic's token, tokens of which its operands are the classes, and the
rest. -/
theorem tokens_of_decode {ts rest : List Token} {i : Instr} (h : decode ts = .instr i rest) :
    ∃ os, ts = i.mnemonic.token :: (os ++ rest) ∧ i.operands = os.map operandOf := by
  rcases decode_cases ts with ⟨-, hd⟩ | ⟨_, _, -, -, hd⟩ | ⟨_, _, -, -, hd⟩ | ⟨j, os, rest', ht, ho, hd⟩ <;>
    rw [hd] at h <;> cases h
  exact ⟨os, ht, ho⟩

theorem text_comp_operandOf : Operand.text ∘ operandOf = id := funext text_operandOf

/-- Settles O3: the class of a token is well-formed and is written as the token. -/
theorem decodedInstructionIsWellFormed : Obligations.DecodedInstructionIsWellFormed := by
  intro ts i rest hw h
  obtain ⟨os, rfl, ho⟩ := tokens_of_decode h
  constructor
  · rw [Instr.WellFormed, ho]
    intro o hmem
    obtain ⟨t, ht, rfl⟩ := List.mem_map.mp hmem
    exact operandOf_wellFormed (hw t (.tail _ (List.mem_append_left _ ht)))
  · rw [encode, ho, List.map_map, text_comp_operandOf, List.map_id, List.cons_append]

/-! ### The classes of operand tokens -/

theorem operandOf_eq_loc {t : Token} {l : Loc} {sp : Spelling} : operandOf t = .loc l sp ↔ t = locName l sp := by
  constructor
  · intro h
    simpa [h, Operand.text] using (text_operandOf t).symm
  · rintro rfl
    exact operandOf_locName l sp

/-- A token that is read as a literal has a digit. -/
theorem digits_ne_nil_of_operandOf {t : Token} {neg : Bool} {ds : List (Fin 10)} (h : operandOf t = .lit neg ds) :
    ds ≠ [] := by
  unfold operandOf at h
  split at h
  · cases h
  · split at h <;> cases h
    next hl => exact (text_of_literalOf? hl).2

theorem operandOf_eq_lit {t : Token} {neg : Bool} {ds : List (Fin 10)} :
    operandOf t = .lit neg ds ↔ ds ≠ [] ∧ t = (Operand.lit neg ds).text := by
  constructor
  · intro h
    exact ⟨digits_ne_nil_of_operandOf h, h ▸ (text_operandOf t).symm⟩
  · rintro ⟨hd, rfl⟩
    exact operandOf_text (o := .lit neg ds) hd

/-- Settles O4: a token is what its class is written as, so that the class "other" is left to the other tokens. -/
theorem operandTokenClasses : Obligations.OperandTokenClasses := by
  refine fun t => ⟨fun l sp => operandOf_eq_loc, fun neg ds => operandOf_eq_lit, fun hloc hlit => ?_⟩
  cases h : operandOf t with
  | loc l sp => exact absurd (operandOf_eq_loc.mp h) (hloc l sp)
  | lit neg ds =>
    obtain ⟨hd, ht⟩ := operandOf_eq_lit.mp h
    exact absurd ht (hlit neg ds hd)
  | other u => rw [← text_operandOf t, h, Operand.text]

/-! ### The value of a literal -/

theorem digitsValue_append_singleton (ds : List (Fin 10)) (d : Fin 10) :
    digitsValue (ds ++ [d]) = 10 * digitsValue ds + d.val := by
  simp only [digitsValue, List.foldl_append, List.foldl_cons, List.foldl_nil]

theorem digitsValue_zero_cons (ds : List (Fin 10)) : digitsValue (0 :: ds) = digitsValue ds := rfl

/-- Settles O5, from the value of the digits with one more at either end. -/
theorem literalIsDecimal : Obligations.LiteralIsDecimal := by
  refine fun ds d => ⟨rfl, ?_, rfl, fun neg => ?_⟩
  · simp [literalValue, digitsValue_append_singleton]
  · rw [literalValue, literalValue, digitsValue_zero_cons]

/-! ### The mnemonic table -/

/-- Settles O59: each row's spelling is found in the table, with the maker of its instruction. -/
theorem mnemonicTableDecodes : Obligations.MnemonicTableDecodes := by
  refine fun a b c rest => ⟨?_, ?_, ?_, ?_⟩ <;>
    simp only [List.forall_mem_cons, List.not_mem_nil, false_imp_iff, implies_true, and_true]
  · refine ⟨?_, ?_, ?_, ?_, ?_⟩ <;> exact decode_of0 rfl rfl rest
  · refine ⟨?_, ?_, ?_, ?_, ?_, ?_, ?_, ?_, ?_, ?_, ?_, ?_, ?_, ?_, ?_, ?_, ?_, ?_, ?_⟩ <;>
      exact decode_of1 rfl rfl a rest
  · refine ⟨?_, ?_, ?_, ?_, ?_, ?_, ?_⟩ <;> exact decode_of2 rfl rfl a b rest
  · refine ⟨?_, ?_, ?_, ?_, ?_, ?_, ?_, ?_, ?_, ?_, ?_, ?_, ?_, ?_, ?_⟩ <;> exact decode_of3 rfl rfl a b c rest

/-- Settles O1, each list by the equation of its number of operands. -/
theorem sampleTokensDecode : Obligations.SampleTokensDecode :=
  ⟨decode_of3 rfl rfl .., decode_of2 rfl rfl .., decode_of1 rfl rfl .., decode_of1 rfl rfl .., decode_of0 rfl rfl _,
    decode_notMnemonic rfl, rfl, rfl⟩

end Sys2Proof

namespace Sys2Proof.Machine

/-! ### The codes -/

/-- Settles O7: none of the 23 codes is read from the configuration. -/
theorem givenOpcodeCodes : Obligations.GivenOpcodeCodes := fun _ => rfl

/-- Settles O58: the codes of each family are a list without duplicates. -/
theorem transferCodesAreDistinct : Obligations.TransferCodesAreDistinct := by
  intro s h family hf
  obtain ⟨hin, hout, hload, hmem⟩ := h.codesDistinct
  have hd : (family.map (codeOf s.cfg)).Nodup := by
    simp only [List.mem_cons, List.not_mem_nil, or_false] at hf
    rcases hf with rfl | rfl | rfl | rfl
    · exact hin
    · exact hout
    · exact hload
    · exact hmem
  exact fun m hm n hn => List.inj_on_of_nodup_map hd hm hn

/-! ### What stands where the decoder reads -/

/-- The first of the tokens left is the one at pc, and the others are those after it. -/
theorem program_at_pc {s : State} {t : Token} {rest : List Token} (h : s.program.drop s.pc = t :: rest) :
    s.program[s.pc]? = some t ∧ s.program.length = s.pc + 1 + rest.length := by
  constructor
  · rw [← List.head?_drop, h, List.head?_cons]
  · have := congrArg List.length h
    rw [List.length_drop, List.length_cons] at this
    omega

theorem fetch_of_not_mnemonic {s : State} {t : Token} (ht : s.program[s.pc]? = some t) (h : mnemonicOf? t = none) :
    fetch s = .notMnemonic t (s.program.drop (s.pc + 1)) := by
  obtain ⟨hl, rfl⟩ := List.getElem?_eq_some_iff.mp ht
  rw [fetch, List.drop_eq_getElem_cons hl, decode_notMnemonic h]

theorem fetch_instr_at {s : State} {i : Instr} {rest : List Token} (h : fetch s = .instr i rest) :
    s.program[s.pc]? = some i.mnemonic.token ∧ s.pc + (1 + i.mnemonic.arity) ≤ s.program.length := by
  obtain ⟨os, ht, ho⟩ := tokens_of_decode h
  obtain ⟨hpc, hl⟩ := program_at_pc ht
  have ha := i.operands_length
  rw [ho, List.length_map] at ha
  rw [List.length_append] at hl
  exact ⟨hpc, by omega⟩

theorem fetch_truncated_at {s : State} {m : Mnemonic} {k : Nat} (h : fetch s = .truncated m k) :
    s.program[s.pc]? = some m.token := by
  rcases decode_cases (s.program.drop s.pc) with ⟨-, hd⟩ | ⟨_, _, -, -, hd⟩ | ⟨_, _, ht, -, hd⟩ | ⟨_, _, _, -, -, hd⟩ <;>
    cases hd.symm.trans h
  exact (program_at_pc ht).1

/-- Wherever the decoder reads anything, pc is below the end of the stream. -/
theorem pc_lt_of_fetch {s : State} (h : fetch s ≠ .endOfStream) : s.pc < s.program.length :=
  Nat.lt_of_not_le fun hl => h (fetch_eq_endOfStream.mpr hl)

/-- Settles O9: the decoder finds no mnemonic at pc. -/
theorem unmatchedTokenIsSkipped : Obligations.UnmatchedTokenIsSkipped := by
  intro s t hm ht hne
  have hn : mnemonicOf? t = none := Option.eq_none_iff_forall_ne_some.mpr fun m h => hne m (mnemonicOf?_eq_some.mp h)
  exact step_notMnemonic hm (fetch_of_not_mnemonic ht hn)

end Sys2Proof.Machine
end

section
/-! PROOFS. The invariant, the frame of an instruction and the aliases: what an instruction's end keeps. -/

namespace Sys2Proof.Machine

/-! ### The frame -/

@[simp] theorem complete_ackInput (m : Mnemonic) (x : StateVector) (s : State) :
    (complete m x s).ackInput = s.ackInput := by
  rcases complete_cases m x s with ⟨-, h⟩ | ⟨-, _, _, -, h⟩ <;> rw [h] <;> rfl

theorem exec_ackInput {i : Instr} {s t : State} (h : exec i s = .next t) : t.ackInput = s.ackInput := by
  rcases exec_cases i s with ⟨e, -, he⟩ | ⟨x, he, -⟩ <;> obtain rfl := Host.Outcome.next.inj (he.symm.trans h)
  · rfl
  · exact complete_ackInput _ x s

/-- An instruction other than RESET leaves every location but its target as it was. -/
theorem exec_keeps_other_locations {i : Instr} {s t : State} {l : Loc} (hi : i ≠ .reset) (h : exec i s = .next t)
    (hl : targetOf? i ≠ some l) : readLoc l t.x = readLoc l s.x := by
  rcases exec_cases i s with ⟨e, -, he⟩ | ⟨x, he, hx⟩ <;> obtain rfl := Host.Outcome.next.inj (he.symm.trans h)
  · rfl
  · rw [complete_x, readLoc_committed]
    rcases hx with rfl | ⟨hr, -⟩ | ⟨d, r, ht, -, rfl⟩
    · rfl
    · exact absurd hr hi
    · exact readLoc_writeLoc_other (by rintro rfl; exact hl ht) _ _

/-- Settles O38: the one location an instruction writes is its target. -/
theorem onlyTheTargetLocationChanges : Obligations.OnlyTheTargetLocationChanges := by
  intro i s t h
  obtain ⟨hp, hc, -⟩ := exec_continues h
  exact ⟨fun hi _ hl => exec_keeps_other_locations hi h hl, hp, hc, exec_ackInput h⟩

/-! ### The aliases -/

theorem not_safe_of_faulted {s : State} {r : FaultReport} (h : s.mode = .faulted r) : ¬ Safe s := fun hs => hs r h

/-- Whether an operation completes does not depend on the mnemonic it is performed for. -/
theorem perform_completes {m : Mnemonic} {dest : Option Token} {res : Except CoreError Effect} {s t : State}
    (h : perform m dest res s = .next t) (ht : Safe t) :
    ∃ x, t = complete m x s ∧ ∀ m', perform m' dest res s = .next (complete m' x s) := by
  rcases res with e | ⟨d, r⟩ | _ | _
  · cases h
    exact absurd ht (not_safe_of_faulted rfl)
  · cases hf : fit s.cfg d dest r with
    | error e =>
      simp only [perform, hf] at h
      cases h
      exact absurd ht (not_safe_of_faulted rfl)
    | ok v =>
      simp only [perform, hf] at h ⊢
      cases h
      exact ⟨_, rfl, fun _ => rfl⟩
  · cases h
    exact ⟨_, rfl, fun _ => rfl⟩
  · cases h
    exact ⟨_, rfl, fun _ => rfl⟩

/-- A completion that does not end the run commits under every other mnemonic too: the code is not what overflows. -/
theorem complete_of_safe {m : Mnemonic} {x : StateVector} {s : State} (h : Safe (complete m x s)) (m' : Mnemonic) :
    complete m' x s = afterCommit s m'.arity (committed s.cfg m' x) := by
  rcases complete_cases m x s with ⟨hr, -⟩ | ⟨-, slot, v, -, hc⟩
  · exact complete_of_renderable (renderable_congr (by simp) hr)
  · exact absurd (hc ▸ h) (not_safe_of_faulted rfl)

/-- One operation performed for two mnemonics of one arity: the states left differ in the code and the record shown. -/
theorem perform_for_two_mnemonics {m m' : Mnemonic} {dest : Option Token} {res : Except CoreError Effect} {s t : State}
    (ha : m'.arity = m.arity) (h : perform m dest res s = .next t) (ht : Safe t) :
    ∃ u, perform m' dest res s = .next u ∧ u.x = { t.x with opcode := u.x.opcode } ∧ u.pc = t.pc ∧ u.mode = t.mode ∧
      u.x.opcode = codeOf s.cfg m' := by
  obtain ⟨x, rfl, hp⟩ := perform_completes h ht
  refine ⟨_, hp m', ?_⟩
  rw [complete_of_safe ht m, complete_of_safe ht m', ha]
  exact ⟨rfl, rfl, rfl, rfl⟩

/-- Settles O31: each pair performs one operation, the inbound transfer to its register. -/
theorem loadsAreAliasesOfTheInTransfers : Obligations.LoadsAreAliasesOfTheInTransfers := by
  intro p hp src s t h ht
  simp only [List.mem_cons, List.not_mem_nil, or_false] at hp
  rcases hp with rfl | rfl | rfl
  · exact perform_for_two_mnemonics (m := .ain) (m' := .loada) rfl h ht
  · exact perform_for_two_mnemonics (m := .bin) (m' := .loadb) rfl h ht
  · exact perform_for_two_mnemonics (m := .cin) (m' := .loadc) rfl h ht

/-! ### The invariant of a run that is not over -/

theorem statusOf_of_not_terminal {md : Mode} (h : md.terminal = false) : statusOf md = [] := by
  cases md with
  | run | awaitAck => rfl
  | done | faulted => cases h

theorem ne_done_of_not_terminal {md : Mode} (h : md.terminal = false) : md ≠ .done := by
  rintro rfl
  cases h

theorem ne_faulted_of_not_terminal {md : Mode} (h : md.terminal = false) (r : FaultReport) : md ≠ .faulted r := by
  rintro rfl
  cases h

/-- The last record shows the State Vector, or nothing has been executed yet (10_state.md R36). -/
def LastShown (records : List RenderRecord) (x : StateVector) : Prop :=
  (records = [] ∧ x = .initial) ∨ records.getLast? = some (renderRecord x)

theorem lastShown_append (records : List RenderRecord) (x : StateVector) :
    LastShown (records ++ [renderRecord x]) x := .inr List.getLast?_concat

/-- What the invariant says of a run that is not over, its bounds and its fixed fields apart. -/
structure Going (s : State) : Prop where
  notTerminal : s.mode.terminal = false
  pause : s.mode = .awaitAck → s.cfg.stepMode = true
  shown : ∃ records : List RenderRecord, s.trace = records.map .render ∧ LastShown records s.x
  rendered : Renderable s.cfg s.x

theorem Going.fields_lt {s : State} (h : Going s) (hc : s.cfg.render = .fault) : ∀ v ∈ fieldValues s.x, v < 2 ^ 32 :=
  h.rendered.resolve_left (by rw [hc]; nofun)

theorem Going.inv {s : State} (h : Going s) (codes : s.cfg.WellFormed) (pc : s.pc ≤ s.program.length)
    (reserved : s.x.reserved = 0) (flags : s.x.flags = 0) (opcode : ∃ m, s.x.opcode = codeOf s.cfg m) :
    MachineInv s where
  codesDistinct := codes
  pcInStream := pc
  reservedZero := reserved
  flagsZero := flags
  opcodeKnown := opcode
  pauseInStepMode := h.pause
  doneAtEnd hd := absurd hd (ne_done_of_not_terminal h.notTerminal)
  traceForm := by
    obtain ⟨records, ht, hl⟩ := h.shown
    exact ⟨records, by rw [ht, statusOf_of_not_terminal h.notTerminal, List.append_nil], fun _ => hl⟩
  renderable hc _ := h.fields_lt hc
  report r hr := absurd hr (ne_faulted_of_not_terminal h.notTerminal r)

namespace MachineInv
variable {s : State} (h : MachineInv s)
include h

theorem going (hm : s.mode.terminal = false) : Going s where
  notTerminal := hm
  pause := h.pauseInStepMode
  shown := by
    obtain ⟨records, ht, hl⟩ := h.traceForm
    rw [statusOf_of_not_terminal hm, List.append_nil] at ht
    exact ⟨records, ht, hl fun r hr => absurd hr (ne_faulted_of_not_terminal hm r)⟩
  rendered := by
    cases hc : s.cfg.render with
    | low32 => exact .inl hc
    | fault => exact .inr (h.renderable hc fun r hr => absurd hr (ne_faulted_of_not_terminal hm r))

/-! ### Each kind of step keeps the invariant -/

theorem nextInput : MachineInv (nextInput s) where
  codesDistinct := h.codesDistinct
  pcInStream := h.pcInStream
  reservedZero := h.reservedZero
  flagsZero := h.flagsZero
  opcodeKnown := h.opcodeKnown
  pauseInStepMode := h.pauseInStepMode
  doneAtEnd := h.doneAtEnd
  traceForm := h.traceForm
  renderable := h.renderable
  report := h.report

theorem skipToken (hm : s.mode = .run) (hp : s.pc < s.program.length) : MachineInv (skipToken s) := by
  obtain ⟨hn, hpause, hshown, hrend⟩ := h.going (hm ▸ rfl)
  exact Going.inv ⟨hn, hpause, hshown, hrend⟩ h.codesDistinct hp h.reservedZero h.flagsZero h.opcodeKnown

theorem acknowledge (hm : s.mode = .awaitAck) : MachineInv (acknowledge s) := by
  obtain ⟨-, -, hshown, hrend⟩ := h.going (hm ▸ rfl)
  have ha : Machine.acknowledge s = { s with mode := .run } := by simp only [Machine.acknowledge, hm]
  rw [ha]
  exact Going.inv ⟨rfl, nofun, hshown, hrend⟩ h.codesDistinct h.pcInStream h.reservedZero h.flagsZero h.opcodeKnown

theorem awaitStep (hm : s.mode = .awaitAck) : MachineInv (awaitStep s) := by
  unfold Machine.awaitStep
  split
  · exact h.nextInput.acknowledge hm
  · exact h.nextInput

theorem endRun (hm : s.mode = .run) (hp : s.pc = s.program.length) : MachineInv (endRun s) where
  codesDistinct := h.codesDistinct
  pcInStream := h.pcInStream
  reservedZero := h.reservedZero
  flagsZero := h.flagsZero
  opcodeKnown := h.opcodeKnown
  pauseInStepMode := nofun
  doneAtEnd _ := hp
  traceForm := by
    obtain ⟨records, ht, hl⟩ := (h.going (hm ▸ rfl)).shown
    exact ⟨records, congrArg (· ++ _) ht, fun _ => hl⟩
  renderable hc _ := (h.going (hm ▸ rfl)).fields_lt hc
  report := nofun

/-- The mnemonic at pc may take an error of code 1 to 4. -/
theorem afterError {m : Mnemonic} {e : CoreError} (hm : s.mode = .run) (ht : s.program[s.pc]? = some m.token)
    (he : e.code ≠ 5) : MachineInv (afterError s m.token e) where
  codesDistinct := h.codesDistinct
  pcInStream := h.pcInStream
  reservedZero := h.reservedZero
  flagsZero := h.flagsZero
  opcodeKnown := h.opcodeKnown
  pauseInStepMode := nofun
  doneAtEnd := nofun
  traceForm := by
    obtain ⟨records, htr, hl⟩ := (h.going (hm ▸ rfl)).shown
    exact ⟨records, congrArg (· ++ _) htr, fun _ => hl⟩
  renderable hc _ := (h.going (hm ▸ rfl)).fields_lt hc
  report := by
    rintro _ ⟨⟩
    exact ⟨m, mnemonicOf?_token m, ht, (if_neg he).symm⟩

section
variable {m : Mnemonic} {x : StateVector} (hm : s.mode = .run) (hp : s.pc + (1 + m.arity) ≤ s.program.length)
  (hr : x.reserved = 0) (hf : x.flags = 0)
include hm hp hr hf

theorem afterCommit (hx : Renderable s.cfg (committed s.cfg m x)) :
    MachineInv (afterCommit s m.arity (committed s.cfg m x)) := by
  obtain ⟨records, htr, -⟩ := (h.going (hm ▸ rfl)).shown
  refine Going.inv ⟨?_, ?_, ?_, hx⟩ h.codesDistinct hp hr hf ⟨m, rfl⟩ <;> simp only [Machine.afterCommit, hm]
  · split <;> rfl
  · split
    · exact fun _ => ‹_›
    · nofun
  · exact ⟨records ++ [renderRecord _], by rw [htr, List.map_append]; rfl, lastShown_append _ _⟩

variable (ht : s.program[s.pc]? = some m.token)
include ht

theorem afterOverflow (slot v : Nat) : MachineInv (afterOverflow s m.token m.arity (committed s.cfg m x) slot v) where
  codesDistinct := h.codesDistinct
  pcInStream := hp
  reservedZero := hr
  flagsZero := hf
  opcodeKnown := ⟨m, rfl⟩
  pauseInStepMode := nofun
  doneAtEnd := nofun
  traceForm := by
    obtain ⟨records, htr, -⟩ := (h.going (hm ▸ rfl)).shown
    exact ⟨records, congrArg (· ++ _) htr, fun hne => absurd rfl (hne _ rfl)⟩
  renderable _ hne := absurd rfl (hne _ rfl)
  report := by
    rintro _ ⟨⟩
    exact ⟨m, mnemonicOf?_token m, ht, rfl⟩

theorem complete : MachineInv (complete m x s) := by
  rcases complete_cases m x s with ⟨hx, hc⟩ | ⟨-, slot, v, -, hc⟩ <;> rw [hc]
  · exact h.afterCommit hm hp hr hf hx
  · exact h.afterOverflow hm hp hr hf ht slot v

end

/-- An instruction whose tokens stand at pc keeps the invariant. -/
theorem exec {i : Instr} {t : State} (hm : s.mode = .run) (ht : s.program[s.pc]? = some i.mnemonic.token)
    (hp : s.pc + (1 + i.mnemonic.arity) ≤ s.program.length) (he : exec i s = .next t) : MachineInv t := by
  rcases exec_cases i s with ⟨e, hcode, hn⟩ | ⟨x, hn, hx⟩ <;> obtain rfl := Host.Outcome.next.inj (hn.symm.trans he)
  · exact h.afterError hm ht (by omega)
  · rcases hx with rfl | ⟨-, rfl⟩ | ⟨d, r, -, -, rfl⟩
    · exact h.complete hm hp h.reservedZero h.flagsZero ht
    · exact h.complete hm hp rfl rfl ht
    · exact h.complete hm hp (by simp [h.reservedZero]) (by simp [h.flagsZero]) ht

end MachineInv

/-! ### Every step keeps the invariant -/

/-- Settles O46: what each kind of step leads to meets the invariant. -/
theorem stepKeepsInvariant : Obligations.StepKeepsInvariant := by
  intro s t h hst
  rcases step_cases s with ⟨hm, i, _, hf, hs⟩ | ⟨hm, ⟨_, _, hf⟩, hs⟩ | ⟨hm, m, k, hf, hs⟩ | ⟨hm, hf, hl, hs⟩ |
    ⟨-, -, -, hs⟩ | ⟨hm, hs⟩ | ⟨-, hs⟩ <;> rw [hs] at hst
  · obtain ⟨ht, hp⟩ := fetch_instr_at hf
    exact h.nextInput.exec hm ht hp hst
  all_goals cases hst
  · exact h.nextInput.skipToken hm (pc_lt_of_fetch (by rw [fetch_nextInput, hf]; nofun))
  · exact h.nextInput.afterError hm (fetch_truncated_at hf) nofun
  · exact h.nextInput.endRun hm (le_antisymm hl (fetch_eq_endOfStream.mp hf))
  · exact h.awaitStep hm
  · exact h

end Sys2Proof.Machine
end

section
/-! PROOFS. The statements of 40_engine.md: operands and views, Fit, the renderer, what an instruction ends in, and the
cycle. -/

namespace Sys2Proof.Machine

/-! ### Operands and their views -/

/-- Settles O32, each clause from the equation of its case. -/
theorem operandResolution : Obligations.OperandResolution := fun _ _ =>
  ⟨fun _ _ => ⟨rfl, rfl⟩, fun _ _ => ⟨rfl, rfl⟩, fun _ => ⟨rfl, rfl⟩, fun _ _ => rfl, fun _ => rfl, fun _ _ _ => rfl,
    fun _ _ => rfl, rfl, rfl, rfl⟩

/-- The sign extension of a bit vector's pattern is its two's-complement value. -/
theorem sext_toNat {w : Nat} (v : BitVec w) : sext w v.toNat = v.toInt := by
  rw [sext, BitVec.toInt_eq_msb_cond, BitVec.msb_eq_getLsbD_last, BitVec.testBit_toNat, Nat.cast_pow, Nat.cast_ofNat]

/-- The value of a location is the pattern of a bit vector of its width (10_state.md R21). -/
theorem exists_readLoc_eq_toNat (l : Loc) (x : StateVector) : ∃ v : BitVec (widthOf l), readLoc l x = v.toNat := by
  cases l <;> exact ⟨_, rfl⟩

theorem toInt_emod_two_pow {w : Nat} (v : BitVec w) : v.toInt % 2 ^ w = v.toNat := by
  have hlt : (v.toNat : Int) < 2 ^ w := mod_cast v.isLt
  have hmod := Int.bmod_emod (x := v.toNat) (m := 2 ^ w)
  rwa [← BitVec.toInt_eq_toNat_bmod, Nat.cast_pow, Nat.cast_ofNat, Int.emod_eq_of_lt (Int.natCast_nonneg _) hlt] at hmod

/-- Settles O33: the signed view of a location is the integer value of its bit vector. -/
theorem signedViewIsTwosComplement : Obligations.SignedViewIsTwosComplement := by
  refine ⟨fun l x => ?_, fun _ => rfl⟩
  obtain ⟨v, hv⟩ := exists_readLoc_eq_toNat l x
  have hs : (Resolved.loc l (readLoc l x)).sv = v.toInt := by rw [Resolved.sv, hv, sext_toNat]
  rw [hs, hv]
  exact ⟨v.le_toInt, v.toInt_lt, toInt_emod_two_pow v⟩

/-! ### A stored result -/

theorem readLoc_stored_same (x : StateVector) (d : Loc) (r : Int) (c : OpcodeWord) :
    ((readLoc d (stored x d r c) : Nat) : Int) = r % 2 ^ widthOf d := by
  rw [stored, readLoc_opcode, readLoc_writeLoc_same x (fitted_lt d r)]
  exact Int.toNat_of_nonneg (Int.emod_nonneg r (by positivity))

theorem readLoc_stored_other {l d : Loc} (h : l ≠ d) (x : StateVector) (r : Int) (c : OpcodeWord) :
    readLoc l (stored x d r c) = readLoc l x := by
  rw [stored, readLoc_opcode, readLoc_writeLoc_other h]

/-- Settles O34: a fitted value is read back whole, and a write reaches its own location only. -/
theorem storedResultIsFitted : Obligations.StoredResultIsFitted := by
  intro x d r c
  have hd := readLoc_stored_same x d r c
  exact ⟨hd, fun h0 h1 => hd.trans (Int.emod_eq_of_lt h0 h1), fun l h => readLoc_stored_other h x r c, rfl,
    writeLoc_reserved _ _ _, writeLoc_flags _ _ _⟩

/-! ### The renderer -/

theorem hexDigits_length (n u : Nat) : (hexDigits n u).length = n := by
  induction n generalizing u with
  | zero => rfl
  | succ n ih => rw [hexDigits, List.length_append, ih, List.length_singleton]

theorem hexDigit_mem_alphabet (d : Nat) : hexDigit d ∈ "0123456789abcdef".toList := by
  unfold hexDigit
  split <;> decide

theorem hexDigits_mem_alphabet (n u : Nat) : ∀ c ∈ hexDigits n u, c ∈ "0123456789abcdef".toList := by
  induction n generalizing u with
  | zero => nofun
  | succ n ih =>
    rw [hexDigits, List.forall_mem_append]
    exact ⟨ih _, List.forall_mem_singleton.mpr (hexDigit_mem_alphabet _)⟩

/-- Settles O36: after the two characters `0x` stand the digits, as many as asked for and each of the alphabet. -/
theorem renderedFormat : Obligations.RenderedFormat :=
  ⟨fun _ => ⟨congrArg (· + 2) (hexDigits_length 8 _), rfl, hexDigits_mem_alphabet 8 _⟩, fun _ => rfl⟩

@[simp] theorem hexValue_hexDigit (d : Fin 16) : hexValue (hexDigit d) = some d.val := by
  revert d; decide

/-- Digits after others are read on from the value of those before them. -/
theorem readDigits_append {acc a : Nat} {cs : List Char} (h : readDigits acc cs = some a) (ds : List Char) :
    readDigits acc (cs ++ ds) = readDigits a ds := by
  induction cs generalizing acc with
  | nil => cases h; rfl
  | cons c cs ih =>
    simp only [List.cons_append, readDigits] at h ⊢
    cases hc : hexValue c with
    | none => rw [hc] at h; cases h
    | some d => rw [hc] at h; exact ih h

/-- Reading the lowest `n` digits of a number gives it modulo 16^n, after what stands before them. -/
theorem readDigits_hexDigits (acc n u : Nat) :
    readDigits acc (hexDigits n u) = some (16 ^ n * acc + u % 16 ^ n) := by
  induction n generalizing u with
  | zero => simp [hexDigits, readDigits, Nat.mod_one]
  | succ n ih =>
    have hd : hexValue (hexDigit (u % 16)) = some (u % 16) := hexValue_hexDigit ⟨u % 16, Nat.mod_lt _ (by decide)⟩
    have hu : u % 16 ^ (n + 1) = u % 16 + 16 * (u / 16 % 16 ^ n) := by rw [Nat.pow_succ', Nat.mod_mul]
    rw [hexDigits, readDigits_append (ih (u / 16))]
    simp only [readDigits, hd, hu, Option.some.injEq]
    ring

theorem readHexWord_hexWord (v : Nat) : readHexWord (hexWord v) = some (v % 2 ^ 32) := by
  have hv : v % 2 ^ 32 % 16 ^ 8 = v % 2 ^ 32 := Nat.mod_mod _ _
  rw [hexWord, readHexWord, readDigits_hexDigits, Nat.mul_zero, Nat.zero_add, hv]

/-- Settles O37: eight digits hold every value below 2^32. -/
theorem renderRoundTrip : Obligations.RenderRoundTrip := fun v =>
  ⟨readHexWord_hexWord v, fun h => by rw [readHexWord_hexWord, Nat.mod_eq_of_lt h]⟩

/-! ### What an executed instruction ends in -/

/-- An instruction takes an error of code 1 to 3, or commits with its code in the Opcode field and renders what it leaves, or
commits so and takes RenderOverflow. -/
theorem exec_ends (i : Instr) (s : State) :
    (∃ e, e.code ≤ 3 ∧ exec i s = .next (afterError s i.mnemonic.token e)) ∨
    ∃ x : StateVector, x.opcode = codeOf s.cfg i.mnemonic ∧
      (exec i s = .next (afterCommit s i.mnemonic.arity x) ∨
        ∃ slot v, exec i s = .next (afterOverflow s i.mnemonic.token i.mnemonic.arity x slot v)) := by
  rcases exec_cases i s with he | ⟨x, hx, -⟩
  · exact .inl he
  · refine .inr ⟨committed s.cfg i.mnemonic x, committed_opcode _ _ _, ?_⟩
    rw [hx]
    rcases complete_cases i.mnemonic x s with ⟨-, hc⟩ | ⟨-, slot, v, -, hc⟩ <;> rw [hc]
    · exact .inl rfl
    · exact .inr ⟨slot, v, rfl⟩

/-- Settles O40: an error comes before every write, and RenderOverflow after the commit. -/
theorem errorsArePrecise : Obligations.ErrorsArePrecise := by
  intro i s
  rcases exec_ends i s with ⟨e, hcode, he⟩ | ⟨x, hx, he | ⟨slot, v, he⟩⟩
  · exact ⟨_, he, .inr ⟨e, hcode, rfl⟩⟩
  · exact ⟨_, he, .inl ⟨hx, rfl⟩⟩
  · exact ⟨_, he, .inl ⟨hx, rfl⟩⟩

/-- Settles O42, by what the instruction ends in. -/
theorem oneRenderRecordPerInstruction : Obligations.OneRenderRecordPerInstruction := by
  intro i s t h
  rcases exec_ends i s with ⟨e, -, he⟩ | ⟨x, -, he | ⟨slot, v, he⟩⟩ <;>
    obtain rfl := Host.Outcome.next.inj (he.symm.trans h)
  · exact .inr ⟨_, rfl, rfl, rfl, rfl⟩
  · exact .inl ⟨rfl, rfl⟩
  · exact .inr ⟨_, rfl, rfl, rfl, rfl⟩

/-! ### How pc moves -/

theorem exec_pc_of_safe {i : Instr} {s t : State} (h : exec i s = .next t) (ht : Safe t) :
    t.pc = s.pc + (1 + i.mnemonic.arity) := by
  rcases exec_ends i s with ⟨e, -, he⟩ | ⟨x, -, he | ⟨slot, v, he⟩⟩ <;>
    obtain rfl := Host.Outcome.next.inj (he.symm.trans h)
  · exact absurd ht (not_safe_of_faulted rfl)
  · rfl
  · rfl

theorem exec_pc {i : Instr} {s t : State} (h : exec i s = .next t) :
    t.pc = s.pc ∨ t.pc = s.pc + (1 + i.mnemonic.arity) := by
  rcases exec_ends i s with ⟨e, -, he⟩ | ⟨x, -, he | ⟨slot, v, he⟩⟩ <;>
    obtain rfl := Host.Outcome.next.inj (he.symm.trans h)
  · exact .inl rfl
  · exact .inr rfl
  · exact .inr rfl

@[simp] theorem awaitStep_pc (s : State) : (awaitStep s).pc = s.pc := by
  unfold awaitStep
  split <;> simp

/-- Settles O41: only an instruction that commits and a skipped token move pc. -/
theorem pcAdvancesPastTheInstruction : Obligations.PcAdvancesPastTheInstruction := by
  refine ⟨fun i s t => exec_pc_of_safe, fun s t h => ?_⟩
  rcases step_cases s with ⟨-, i, _, hf, hs⟩ | ⟨-, -, hs⟩ | ⟨-, m, k, -, hs⟩ | ⟨-, -, -, hs⟩ | ⟨-, -, -, hs⟩ |
    ⟨-, hs⟩ | ⟨-, hs⟩ <;> rw [hs] at h
  · rcases exec_pc h with hpc | hpc
    · exact .inl hpc
    · exact .inr (.inr ⟨i.mnemonic, (fetch_instr_at hf).1, hpc⟩)
  all_goals cases h
  · exact .inr (.inl rfl)
  · exact .inl rfl
  · exact .inl rfl
  · exact .inl (awaitStep_pc s)
  · exact .inl rfl

/-! ### One step of the cycle -/

/-- Settles O8: `fetch` is the decoder's reading at pc, and `nextInput` consumes one entry. -/
theorem stepRunsDecodedInstruction : Obligations.StepRunsDecodedInstruction := fun _ _ _ hm hd => step_instr hm hd

theorem fetch_cut_off {s : State} {m : Mnemonic} (ht : s.program[s.pc]? = some m.token)
    (ha : s.program.length - 1 - s.pc < m.arity) : fetch s = .truncated m (s.program.length - 1 - s.pc) := by
  obtain ⟨hl, hget⟩ := List.getElem?_eq_some_iff.mp ht
  have hlen : (s.program.drop (s.pc + 1)).length = s.program.length - 1 - s.pc := by rw [List.length_drop]; omega
  rw [fetch, List.drop_eq_getElem_cons hl, hget, ← hlen]
  exact decode_truncated (hlen ▸ ha)

/-- Settles O10: the tokens after the mnemonic are too few for its operands. -/
theorem cutOffInstructionIsTruncated : Obligations.CutOffInstructionIsTruncated := fun _ _ hm ht ha =>
  step_truncated hm (fetch_cut_off ht ha)

/-- Settles O11: no token is left at pc, and pc is within its range. -/
theorem endOfStreamIsDone : Obligations.EndOfStreamIsDone := fun _ hm hp =>
  step_at_end hm (fetch_eq_endOfStream.mpr hp.ge) hp.le

theorem awaitStep_of_ack {s : State} (hm : s.mode = .awaitAck) (ha : ackArrives s = true) :
    awaitStep s = { nextInput s with mode := .run } := by
  rw [awaitStep, if_pos ha, acknowledge, nextInput_mode, hm]

theorem awaitStep_of_no_ack {s : State} (ha : ackArrives s = false) : awaitStep s = nextInput s := by
  rw [awaitStep, if_neg (ha ▸ Bool.false_ne_true)]

theorem nextInput_of_no_input {s : State} (h : s.ackInput = []) : nextInput s = s := by
  have ht : s.ackInput.tail = s.ackInput := h ▸ rfl
  rw [nextInput, ht]

/-- Settles O13: an entry of the input is read in AwaitAck only, and consumed in mode Run too. -/
theorem acknowledgmentEndsThePauseOnly : Obligations.AcknowledgmentEndsThePauseOnly := by
  intro s rest
  refine ⟨fun hm ha => ?_, fun hm ha => ?_, fun hm ha => ?_, fun hm => ?_⟩
  · rw [step_awaitAck hm, awaitStep_of_ack hm (by rw [ackArrives, ha]; rfl), nextInput, ha, List.tail_cons]
  · rw [step_awaitAck hm, awaitStep_of_no_ack (by rw [ackArrives, ha]; rfl), nextInput, ha, List.tail_cons]
  · rw [step_awaitAck hm, awaitStep_of_no_ack (by rw [ackArrives, ha]; rfl), nextInput_of_no_input ha]
  · have hrun (b : Bool) : step { s with ackInput := b :: rest } = stepRun { s with ackInput := rest } := step_run hm
    rw [hrun, hrun]

/-! ### A placed word -/

/-- The placed tokens stand at pc, whatever the stream was. -/
theorem program_placeTokens_drop (s : State) (ts : List Token) :
    (placeTokens s ts).program.drop s.pc = ts ++ s.program.drop (s.pc + ts.length) := by
  rw [placeTokens_program, List.append_assoc]
  refine List.drop_left' ?_
  rw [List.length_append, List.length_take, List.length_replicate]
  omega

theorem decodeTableWord_eq_some {nbits w : Nat} {i : Instr} (h : decodeTableWord nbits w = some i) :
    ∃ rest, decode (wordTokens nbits w) = .instr i rest := by
  unfold decodeTableWord at h
  split at h
  · rename_i j rest hd
    exact ⟨rest, Option.some.inj h ▸ hd⟩
  · cases h

/-- Settles O6: what follows the placed tokens in the stream does not change how they are read. -/
theorem placedWordRunsNext : Obligations.PlacedWordRunsNext := by
  intro s nbits w i h
  obtain ⟨rest, hd⟩ := decodeTableWord_eq_some h
  have hf : fetch (s.withFetchWord nbits w) = .instr i (rest ++ s.program.drop (s.pc + (wordTokens nbits w).length)) := by
    rw [fetch, State.withFetchWord, placeTokens_pc, program_placeTokens_drop]
    exact decode_append hd _
  exact step_instr rfl hf

/-! ### A run without step mode ends -/

/-- `t` is in mode Run with fewer tokens left than `s`, and pc within the stream. -/
structure Advances (s t : State) : Prop where
  running : t.mode = .run
  pcRises : s.pc < t.pc
  pcInStream : t.pc ≤ t.program.length

theorem exec_ends_or_advances {i : Instr} {s : State} (hm : s.mode = .run) (hc : s.cfg.stepMode = false)
    (hl : s.pc + (1 + i.mnemonic.arity) ≤ s.program.length) :
    ∃ t, exec i s = .next t ∧ (t.mode.terminal = true ∨ Advances s t) := by
  rcases exec_ends i s with ⟨e, -, he⟩ | ⟨x, -, he | ⟨slot, v, he⟩⟩
  · exact ⟨_, he, .inl rfl⟩
  · have hrun : (afterCommit s i.mnemonic.arity x).mode = .run := by simp [afterCommit, hc, hm]
    have hrise : s.pc < s.pc + (1 + i.mnemonic.arity) := by omega
    exact ⟨_, he, .inr ⟨hrun, hrise, hl⟩⟩
  · exact ⟨_, he, .inl rfl⟩

/-- Without step mode a step ends the run or brings it closer to the end of the stream. -/
theorem step_ends_or_advances {s : State} (hm : s.mode = .run) (hc : s.cfg.stepMode = false)
    (hp : s.pc ≤ s.program.length) : ∃ t, step s = .next t ∧ (t.mode.terminal = true ∨ Advances s t) := by
  cases hf : fetch s with
  | instr i rest =>
    obtain ⟨t, ht, hend | ⟨hrun, hrise, hle⟩⟩ :=
      exec_ends_or_advances (s := nextInput s) hm hc (fetch_instr_at hf).2
    · exact ⟨t, (step_instr hm hf).trans ht, .inl hend⟩
    · exact ⟨t, (step_instr hm hf).trans ht, .inr ⟨hrun, hrise, hle⟩⟩
  | notMnemonic u rest =>
    have hlt : s.pc < s.program.length := pc_lt_of_fetch (by rw [hf]; nofun)
    exact ⟨_, step_notMnemonic hm hf, .inr ⟨hm, Nat.lt_succ_self _, hlt⟩⟩
  | truncated m k => exact ⟨_, step_truncated hm hf, .inl rfl⟩
  | endOfStream => exact ⟨_, step_at_end hm hf hp, .inl rfl⟩

/-- One step more than a bound on the tokens left ends the run. -/
theorem run_ends (n : Nat) {s : State} (hc : s.cfg.stepMode = false) (hm : s.mode = .run)
    (hp : s.pc ≤ s.program.length) (hn : s.program.length ≤ s.pc + n) :
    ∃ t, runSteps (n + 1) s = .next t ∧ t.mode.terminal = true := by
  induction n generalizing s with
  | zero =>
    have hs := step_at_end hm (fetch_eq_endOfStream.mpr hn) hp
    exact ⟨_, (runSteps_next hs 0).trans (runSteps_zero _), rfl⟩
  | succ n ih =>
    obtain ⟨t, hs, hend | ⟨hrun, hrise, hle⟩⟩ := step_ends_or_advances hm hc hp
    · exact ⟨t, (runSteps_next hs _).trans (endedRunStaysEnded _ t hend), hend⟩
    · obtain ⟨hprog, hcfg, -⟩ := step_continues hs
      obtain ⟨u, hu, hterm⟩ := ih (hcfg ▸ hc) hrun hle (by rw [hprog]; omega)
      exact ⟨u, (runSteps_next hs _).trans hu, hterm⟩

/-- Settles O49, by induction on the number of tokens left. -/
theorem runEndsWithinTheStream : Obligations.RunEndsWithinTheStream := fun _ hc hm hp =>
  run_ends _ hc hm hp (by omega)

end Sys2Proof.Machine
end

section
/-! PROOFS. The statements of 41_markers.md: the instructions that complete without a pending write. -/

namespace Sys2Proof.Machine

/-- An instruction without operands that completes with the State Vector it finds satisfies the rule of a marker. -/
theorem markerRule_of_exec {m : Mnemonic} {i : Instr} (ha : m.arity = 0)
    (h : ∀ s, exec i s = .next (complete m s.x s)) : MarkerRule m.token i (codeOf · m) := by
  intro s
  rw [h]
  exact ha ▸ complete_commitsTo m s.x s

/-- Settles O17: each of the four completes at once, under a code the source gives. -/
theorem markerRules : Obligations.MarkerRules :=
  ⟨markerRule_of_exec (m := .zero) rfl fun _ => rfl, markerRule_of_exec (m := .imm) rfl fun _ => rfl,
    markerRule_of_exec (m := .jump) rfl fun _ => rfl, markerRule_of_exec (m := .stall) rfl fun _ => rfl⟩

theorem readLoc_with_opcode (l : Loc) (x : StateVector) (c : OpcodeWord) :
    readLoc l { x with opcode := c } = readLoc l x := by
  cases l <;> rfl

/-- An Opcode write does not make the render overflow, so that a marker commits wherever the State Vector is accepted. -/
theorem MarkerRule.commits_opcode_only {m : Token} {i : Instr} {code : Config → OpcodeWord} {s : State}
    (h : MarkerRule m i code) (hr : Renderable s.cfg s.x) :
    ∃ t, exec i s = .next t ∧ t.x = { s.x with opcode := code s.cfg } ∧ t.pc = s.pc + 1 ∧
      t.trace = s.trace ++ [.render (renderRecord t.x)] ∧ t.mode = if s.cfg.stepMode then .awaitAck else s.mode := by
  have hx : Renderable s.cfg { s.x with opcode := code s.cfg } :=
    renderable_congr (fun l => (readLoc_with_opcode l s.x _).symm) hr
  exact ⟨_, (h s).rendered hx, rfl, rfl, rfl, rfl⟩

/-- Settles O16: the decoder takes no operand for the four, and their rule gives the state each commits. -/
theorem markersWriteTheOpcodeFieldOnly : Obligations.MarkersWriteTheOpcodeFieldOnly := by
  obtain ⟨hzero, himm, hjump, hstall⟩ := markerRules
  refine ⟨?_, fun _ _ => rfl⟩
  simp only [List.forall_mem_cons, List.not_mem_nil, false_imp_iff, implies_true, and_true]
  exact ⟨⟨decode_of0 rfl rfl, fun _ => hzero.commits_opcode_only⟩, ⟨decode_of0 rfl rfl, fun _ => himm.commits_opcode_only⟩,
    ⟨decode_of0 rfl rfl, fun _ => hjump.commits_opcode_only⟩, decode_of0 rfl rfl, fun _ => hstall.commits_opcode_only⟩

end Sys2Proof.Machine
end

section
/-! PROOFS. The statements of 42_arithmetic.md: the instructions of format F3, from the equations of `binary`. -/

namespace Sys2Proof.Machine

/-! ### One equation per case of `binary` -/

section
variable {d : Loc} {sp : Spelling} {dest a b : Operand} {va vb : Resolved} {x : StateVector}
  {op : Resolved → Resolved → Except CoreError Int}

theorem binary_of_bad_dest (h : ∀ d sp, dest ≠ .loc d sp) :
    binary dest a b op x = .error (.unknownOperand dest.text 1) := by
  rcases destOf_cases dest with ⟨d, sp, hd, -⟩ | ⟨-, hd⟩
  · exact absurd hd (h d sp)
  · simp only [binary, hd]

theorem binary_other_first (t : Token) : binary (.loc d sp) (.other t) b op x = .error (.unknownOperand t 2) := rfl

theorem binary_other_second (ha : valueOf x a = some va) (t : Token) :
    binary (.loc d sp) a (.other t) op x = .error (.unknownOperand t 3) := by
  simp only [binary, destOf, resolve_of_valueOf 2 ha]
  rfl

/-- On two values the operation decides: its error, or a pending write of its result. -/
theorem binary_of_values (ha : valueOf x a = some va) (hb : valueOf x b = some vb) :
    binary (.loc d sp) a b op x = (op va vb).map (.write d) := by
  simp only [binary, destOf, resolve_of_valueOf 2 ha, resolve_of_valueOf 3 hb]
  cases op va vb <;> rfl

end

theorem perform_of_error {m : Mnemonic} {dest : Option Token} {res : Except CoreError Effect} {s : State}
    {e : CoreError} (h : res = .error e) : perform m dest res s = .next (afterError s m.token e) := by
  rw [h, perform, takeError_eq_afterError]

/-! ### The rule of format F3 -/

section
variable {m : Mnemonic} {mk : Operand → Operand → Operand → Instr} {op : Resolved → Resolved → Int}

/-- An instruction that performs `f` on its two sources satisfies the rule of its format, where `f`, which may name the
divisor's operand, raises DivideByZero for a zero divisor and gives `op` otherwise. -/
theorem threeOperandRule_of_exec {zeroDivisor : Resolved → Prop}
    {f : Operand → Resolved → Resolved → Except CoreError Int} (hm : m.arity = 3)
    (hexec : ∀ dest a b s, exec (mk dest a b) s = perform m (some dest.text) (binary dest a b (f b) s.x) s)
    (hzero : ∀ b va vb, zeroDivisor vb → f b va vb = .error (.divideByZero b.text))
    (hop : ∀ b va vb, ¬ zeroDivisor vb → f b va vb = .ok (op va vb)) :
    ThreeOperandRule m.token mk (codeOf · m) zeroDivisor op where
  badDest dest a b s h := by
    rw [hexec, perform_of_error (binary_of_bad_dest h)]
  badFirst d sp t b s := by
    rw [hexec, perform_of_error (binary_other_first t)]
  badSecond d sp a va t s ha := by
    rw [hexec, perform_of_error (binary_other_second ha t)]
  byZero d sp a b va vb s ha hb hz := by
    have hres : binary (.loc d sp) a b (f b) s.x = .error (.divideByZero b.text) := by
      rw [binary_of_values ha hb, hzero b va vb hz, Except.map]
    rw [hexec, perform_of_error hres]
  result d sp a b va vb s ha hb hz := by
    have hres : binary (.loc d sp) a b (f b) s.x = .ok (.write d (op va vb)) := by
      rw [binary_of_values ha hb, hop b va vb hz, Except.map]
    rw [hexec, ← hm]
    exact perform_writesTo hres

/-- An operation that gives a result for all values has no zero divisor. -/
theorem threeOperandRule_of_total (hm : m.arity = 3)
    (hexec : ∀ dest a b s,
      exec (mk dest a b) s = perform m (some dest.text) (binary dest a b (fun va vb => .ok (op va vb)) s.x) s) :
    ThreeOperandRule m.token mk (codeOf · m) (fun _ => False) op :=
  threeOperandRule_of_exec (f := fun _ va vb => .ok (op va vb)) hm hexec (fun _ _ _ => False.elim) fun _ _ _ _ => rfl

theorem quotient_zero (divisor : Operand) (n : Int) : quotient divisor n 0 = .error (.divideByZero divisor.text) := rfl

theorem quotient_of_ne_zero {k : Int} (h : k ≠ 0) (divisor : Operand) (n : Int) :
    quotient divisor n k = .ok (n.tdiv k) := if_neg h

/-- A division on one of the views raises DivideByZero exactly where the divisor's view is 0. -/
theorem threeOperandRule_of_quotient {view : Resolved → Int} (hm : m.arity = 3)
    (hexec : ∀ dest a b s, exec (mk dest a b) s =
      perform m (some dest.text) (binary dest a b (fun va vb => quotient b (view va) (view vb)) s.x) s) :
    ThreeOperandRule m.token mk (codeOf · m) (fun vb => view vb = 0) (fun va vb => (view va).tdiv (view vb)) :=
  threeOperandRule_of_exec (f := fun b va vb => quotient b (view va) (view vb)) hm hexec
    (fun b va _ h => h ▸ quotient_zero b (view va)) fun b va _ h => quotient_of_ne_zero h b (view va)

end

/-! ### The arithmetic instructions -/

/-- Settles O18: both operations give a result for all values. -/
theorem additionAndSubtraction : Obligations.AdditionAndSubtraction :=
  ⟨threeOperandRule_of_total (m := .add) rfl fun _ _ _ _ => rfl,
    threeOperandRule_of_total (m := .sub) rfl fun _ _ _ _ => rfl⟩

/-- Settles O19: the three products are there for all values. -/
theorem multiplications : Obligations.Multiplications :=
  ⟨threeOperandRule_of_total (m := .mult) rfl fun _ _ _ _ => rfl,
    threeOperandRule_of_total (m := .mulths) rfl fun _ _ _ _ => rfl,
    threeOperandRule_of_total (m := .multhsu) rfl fun _ _ _ _ => rfl⟩

/-- Settles O20: each is the quotient of one of the two views. -/
theorem divisions : Obligations.Divisions :=
  ⟨threeOperandRule_of_quotient (m := .div) (view := Resolved.uv) rfl fun _ _ _ _ => rfl,
    threeOperandRule_of_quotient (m := .divs) (view := Resolved.sv) rfl fun _ _ _ _ => rfl,
    threeOperandRule_of_quotient (m := .divuns) (view := Resolved.uv) rfl fun _ _ _ _ => rfl⟩

end Sys2Proof.Machine
end

section
/-! PROOFS. The statements of 43_load_store.md: the moves are of format F2, from the equations of `unary`; the subtractions
are of format F3, whose rule stands above. -/

namespace Sys2Proof.Machine

/-! ### One equation per case of `unary` -/

section
variable {d : Loc} {sp : Spelling} {dest src : Operand} {v : Resolved} {x : StateVector} {op : Nat → Resolved → Int}

theorem unary_of_bad_dest (h : ∀ d sp, dest ≠ .loc d sp) :
    unary dest src op x = .error (.unknownOperand dest.text 1) := by
  rcases destOf_cases dest with ⟨d, sp, hd, -⟩ | ⟨-, hd⟩
  · exact absurd hd (h d sp)
  · simp only [unary, hd]

theorem unary_other_source (t : Token) : unary (.loc d sp) (.other t) op x = .error (.unknownOperand t 2) := rfl

/-- On a value the result is a pending write, whatever the operation. -/
theorem unary_of_value (hv : valueOf x src = some v) :
    unary (.loc d sp) src op x = .ok (.write d (op (widthOf d) v)) := by
  simp only [unary, destOf, resolve_of_valueOf 2 hv]

end

/-! ### The rule of format F2 -/

/-- An instruction that performs `op` on its source and its destination's width satisfies the rule of its format. -/
theorem twoOperandRule_of_exec {m : Mnemonic} {mk : Operand → Operand → Instr} {op : Nat → Resolved → Int}
    (hm : m.arity = 2)
    (hexec : ∀ dest src s, exec (mk dest src) s = perform m (some dest.text) (unary dest src op s.x) s) :
    TwoOperandRule m.token mk (codeOf · m) op where
  badDest dest src s h := by
    rw [hexec, perform_of_error (unary_of_bad_dest h)]
  badSource d sp t s := by
    rw [hexec, perform_of_error (unary_other_source t)]
  result d sp src v s hv := by
    rw [hexec, ← hm]
    exact perform_writesTo (unary_of_value hv)

/-! ### The load- and store-named instructions -/

/-- Settles O21: each performs the unsigned view of its source, whatever the destination's width. -/
theorem byteNamedMoves : Obligations.ByteNamedMoves :=
  ⟨twoOperandRule_of_exec (m := .storebyte) rfl fun _ _ _ => rfl,
    twoOperandRule_of_exec (m := .loadbyte) rfl fun _ _ _ => rfl,
    twoOperandRule_of_exec (m := .loadbyteun) rfl fun _ _ _ => rfl⟩

/-- Settles O22: the difference is there for all values, and each code is the configuration's own. -/
theorem halfAndWordNamedSubtractions : Obligations.HalfAndWordNamedSubtractions :=
  ⟨threeOperandRule_of_total (m := .storehalf) rfl fun _ _ _ _ => rfl,
    threeOperandRule_of_total (m := .storeword) rfl fun _ _ _ _ => rfl,
    threeOperandRule_of_total (m := .loadhalf) rfl fun _ _ _ _ => rfl,
    threeOperandRule_of_total (m := .loadhalfun) rfl fun _ _ _ _ => rfl,
    threeOperandRule_of_total (m := .loadword) rfl fun _ _ _ _ => rfl⟩

end Sys2Proof.Machine
end

section
/-! PROOFS. The statements of 44_compare_shift.md: the comparisons are of format F3 and the shifts of format F2, whose
rules stand above; a shift formula on naturals is first said again on integers. -/

namespace Sys2Proof.Machine

/-! ### The comparisons -/

/-- Settles O23: both differences are there for all values. -/
theorem compares : Obligations.Compares :=
  ⟨threeOperandRule_of_total (m := .setlessthan) rfl fun _ _ _ _ => rfl,
    threeOperandRule_of_total (m := .setlessthanun) rfl fun _ _ _ _ => rfl⟩

/-! ### The shift formulas on integers -/

section
variable (p : Nat × Nat)

theorem shiftLeftLogical_eq_int : shiftLeftLogical p = (2 * (p.1 : Int)) % 2 ^ p.2 := by
  simp only [shiftLeftLogical, Int.natCast_emod, Nat.cast_mul, Nat.cast_pow, Nat.cast_ofNat]

theorem shiftRightLogical_eq_int : shiftRightLogical p = (p.1 : Int) / 2 := rfl

/-- The replicated sign bit is the bit's value at the bit's weight. -/
theorem shiftRightArithmetic_eq_int :
    shiftRightArithmetic p = (p.1 : Int) / 2 + ((p.1.testBit (p.2 - 1)).toNat : Int) * 2 ^ (p.2 - 1) := by
  cases hsign : p.1.testBit (p.2 - 1) <;> simp [shiftRightArithmetic, hsign]

theorem shiftLeftArithmetic_eq_int : shiftLeftArithmetic p = 2 * (p.1 : Int) := Nat.cast_mul 2 p.1

end

/-! ### The shifts -/

/-- An instruction that performs the shift `f` on ShiftSrc satisfies the rule of format F2 with any formula that agrees
with `f`. -/
theorem twoOperandRule_of_shift {m : Mnemonic} {mk : Operand → Operand → Instr} {f : Nat × Nat → Int}
    {op : Nat → Resolved → Int} (hm : m.arity = 2)
    (hexec : ∀ dest src s,
      exec (mk dest src) s = perform m (some dest.text) (unary dest src (fun wd v => f (shiftSrc wd v)) s.x) s)
    (hop : ∀ wd v, f (shiftSrc wd v) = op wd v) :
    TwoOperandRule m.token mk (codeOf · m) op := by
  obtain rfl : (fun wd v => f (shiftSrc wd v)) = op := funext₂ hop
  exact twoOperandRule_of_exec hm hexec

/-- Settles O24: each performs its formula on ShiftSrc, and the formula is the spec's on integers. -/
theorem shifts : Obligations.Shifts :=
  ⟨twoOperandRule_of_shift (m := .shiftleftlog) rfl (fun _ _ _ => rfl) fun _ _ => shiftLeftLogical_eq_int _,
    twoOperandRule_of_shift (m := .shiftrightlog) rfl (fun _ _ _ => rfl) fun _ _ => shiftRightLogical_eq_int _,
    twoOperandRule_of_shift (m := .shiftrigharth) rfl (fun _ _ _ => rfl) fun _ _ => shiftRightArithmetic_eq_int _,
    twoOperandRule_of_shift (m := .shiftleftarth) rfl (fun _ _ _ => rfl) fun _ _ => shiftLeftArithmetic_eq_int _⟩

/-! ### The shift formulas on bit vectors -/

section
variable {w : Nat} (v : BitVec w)

theorem shiftLeftLogical_toNat : shiftLeftLogical (v.toNat, w) = (v <<< 1).toNat := by
  rw [shiftLeftLogical, BitVec.toNat_shiftLeft, Nat.shiftLeft_eq, pow_one, Nat.mul_comm]

theorem shiftRightLogical_toNat : shiftRightLogical (v.toNat, w) = (v >>> 1).toNat := by
  rw [shiftRightLogical, BitVec.toNat_ushiftRight, Nat.shiftRight_one]

/-- With the sign bit set, halving the complement and complementing again adds the sign bit's weight to the half. -/
theorem shiftRightArithmetic_toNat (hw : 0 < w) : shiftRightArithmetic (v.toNat, w) = (v.sshiftRight 1).toNat := by
  have hsign : v.toNat.testBit (w - 1) = v.msb := by rw [BitVec.msb_eq_getLsbD_last, BitVec.testBit_toNat]
  simp only [shiftRightArithmetic, hsign, Nat.cast_inj]
  cases hm : v.msb with
  | false => rw [BitVec.toNat_sshiftRight_of_msb_false hm, Nat.shiftRight_one, if_neg Bool.false_ne_true, Nat.add_zero]
  | true =>
    have hlt : v.toNat < 2 ^ w := v.isLt
    have hpow : 2 ^ (w - 1) + 2 ^ (w - 1) = 2 ^ w := Nat.two_pow_pred_add_two_pow_pred hw
    rw [BitVec.toNat_sshiftRight_of_msb_true hm, Nat.shiftRight_one, if_pos rfl]
    omega

end

/-- Settles O35, one shift at a time. -/
theorem shiftsAreBitVectorShifts : Obligations.ShiftsAreBitVectorShifts := fun _ v hw =>
  ⟨shiftLeftLogical_toNat v, shiftRightLogical_toNat v, shiftRightArithmetic_toNat v hw⟩

end Sys2Proof.Machine
end

section
/-! PROOFS. The statements of 45_transfer.md: the "in" transfers are of format F1S and the "out" transfers of format F1D,
from the equations of `inbound` and `outbound`; then what a copy out of a memory slot leaves. -/

namespace Sys2Proof.Machine

/-! ### One equation per case of `inbound` and `outbound` -/

section
variable {l d : Loc} {sp : Spelling} {dest src : Operand} {v : Resolved} {x : StateVector}

theorem inbound_other_source (t : Token) : inbound l (.other t) x = .error (.unknownOperand t 1) := rfl

theorem inbound_of_value (hv : valueOf x src = some v) : inbound l src x = .ok (.write l v.uv) := by
  simp only [inbound, resolve_of_valueOf 1 hv]

theorem outbound_of_bad_dest (h : ∀ d sp, dest ≠ .loc d sp) :
    outbound dest l x = .error (.unknownOperand dest.text 1) := by
  rcases destOf_cases dest with ⟨d, sp, hd, -⟩ | ⟨-, hd⟩
  · exact absurd hd (h d sp)
  · simp only [outbound, hd]

theorem outbound_of_loc : outbound (.loc d sp) l x = .ok (.write d (readLoc l x)) := rfl

end

/-! ### The rules of formats F1S and F1D -/

section
variable {m : Mnemonic} {mk : Operand → Instr} {l : Loc}

/-- An instruction that performs the inbound transfer to `l` satisfies the rule of its format. -/
theorem inboundRule_of_exec (hm : m.arity = 1)
    (hexec : ∀ src s, exec (mk src) s = perform m none (inbound l src s.x) s) :
    InboundRule m.token mk (codeOf · m) l where
  badSource t s := by
    rw [hexec, perform_of_error (inbound_other_source t)]
  result src v s hv := by
    rw [hexec, ← hm]
    exact perform_writesTo (inbound_of_value hv)

/-- An instruction that performs the outbound transfer of `l` satisfies the rule of its format. -/
theorem outboundRule_of_exec (hm : m.arity = 1)
    (hexec : ∀ dest s, exec (mk dest) s = perform m (some dest.text) (outbound dest l s.x) s) :
    OutboundRule m.token mk (codeOf · m) l where
  badDest dest s h := by
    rw [hexec, perform_of_error (outbound_of_bad_dest h)]
  result d sp s := by
    rw [hexec, ← hm]
    exact perform_writesTo outbound_of_loc

end

/-! ### The transfers -/

/-- Settles O25: the aliases perform the transfers of their registers, under codes of their own. -/
theorem registerInTransfers : Obligations.RegisterInTransfers :=
  ⟨inboundRule_of_exec (m := .ain) rfl fun _ _ => rfl, inboundRule_of_exec (m := .bin) rfl fun _ _ => rfl,
    inboundRule_of_exec (m := .cin) rfl fun _ _ => rfl, inboundRule_of_exec (m := .loada) rfl fun _ _ => rfl,
    inboundRule_of_exec (m := .loadb) rfl fun _ _ => rfl, inboundRule_of_exec (m := .loadc) rfl fun _ _ => rfl⟩

/-- Settles O26: each performs the outbound transfer of its register. -/
theorem registerOutTransfers : Obligations.RegisterOutTransfers :=
  ⟨outboundRule_of_exec (m := .aout) rfl fun _ _ => rfl, outboundRule_of_exec (m := .bout) rfl fun _ _ => rfl,
    outboundRule_of_exec (m := .cout) rfl fun _ _ => rfl⟩

/-- Settles O27: each performs the inbound transfer to the slot its name gives. -/
theorem memoryInTransfers : Obligations.MemoryInTransfers :=
  ⟨inboundRule_of_exec (m := .mem1in) rfl fun _ _ => rfl, inboundRule_of_exec (m := .mem2in) rfl fun _ _ => rfl,
    inboundRule_of_exec (m := .mem3in) rfl fun _ _ => rfl, inboundRule_of_exec (m := .mem4in) rfl fun _ _ => rfl,
    inboundRule_of_exec (m := .mem5in) rfl fun _ _ => rfl⟩

/-- Settles O28: each performs the outbound transfer of the slot its name gives. -/
theorem memoryOutTransfers : Obligations.MemoryOutTransfers :=
  ⟨outboundRule_of_exec (m := .mem1out) rfl fun _ _ => rfl, outboundRule_of_exec (m := .mem2out) rfl fun _ _ => rfl,
    outboundRule_of_exec (m := .mem3out) rfl fun _ _ => rfl, outboundRule_of_exec (m := .mem4out) rfl fun _ _ => rfl,
    outboundRule_of_exec (m := .mem5out) rfl fun _ _ => rfl⟩

/-! ### A copy from a location into one at least as wide -/

/-- No location is narrower than a memory slot (10_state.md R20). -/
theorem memWidth_le_widthOf (d : Loc) : 12 ≤ widthOf d := by
  cases d <;> decide

section
variable {l d : Loc} (hw : widthOf l ≤ widthOf d)
include hw

theorem readLoc_lt_of_width_le (x : StateVector) : readLoc l x < 2 ^ widthOf d :=
  (readLoc_lt l x).trans_le (Nat.pow_le_pow_right two_pos hw)

/-- A copied value is in range, so that `Fit` accepts it under both policies (40_engine.md R108). -/
theorem fits_readLoc (cfg : Config) (x : StateVector) : Fits cfg d (readLoc l x) :=
  .inr ⟨Int.natCast_nonneg _, mod_cast readLoc_lt_of_width_le hw x⟩

theorem readLoc_stored_copy (x : StateVector) (c : OpcodeWord) :
    readLoc d (stored x d (readLoc l x) c) = readLoc l x := by
  have hlt : (readLoc l x : Int) < 2 ^ widthOf d := mod_cast readLoc_lt_of_width_le hw x
  exact_mod_cast (readLoc_stored_same x d (readLoc l x) c).trans (Int.emod_eq_of_lt (Int.natCast_nonneg _) hlt)

/-- A copy brings no value into the locations that was not in one of them before. -/
theorem renderable_stored_copy {cfg : Config} {x : StateVector} (hr : Renderable cfg x) (c : OpcodeWord) :
    Renderable cfg (stored x d (readLoc l x) c) := by
  refine hr.imp_right fun hs => (fields_small_iff _).mpr fun k => ?_
  have hlocs := (fields_small_iff x).mp hs
  by_cases hk : k = d
  · rw [hk, readLoc_stored_copy hw]
    exact hlocs l
  · rw [readLoc_stored_other hk]
    exact hlocs k

/-- An "out" transfer into a location wide enough commits the whole value wherever the State Vector is accepted. -/
theorem OutboundRule.copies_whole {m : Token} {mk : Operand → Instr} {code : Config → OpcodeWord} {s : State}
    (h : OutboundRule m mk code l) (sp : Spelling) (hr : Renderable s.cfg s.x) :
    ∃ t, exec (mk (.loc d sp)) s = .next t ∧ readLoc d t.x = readLoc l s.x ∧
      t.mode = if s.cfg.stepMode then .awaitAck else s.mode :=
  ⟨_, ((h.result d sp s).fits (fits_readLoc hw _ _)).rendered (renderable_stored_copy hw hr _),
    readLoc_stored_copy hw _ _, rfl⟩

end

/-- A memory slot's value is copied whole into every location (20_memory.md R53). -/
theorem OutboundRule.copies_slot_whole {m : Token} {mk : Operand → Instr} {code : Config → OpcodeWord} {l : Loc}
    (h : OutboundRule m mk code l) (hl : widthOf l = 12) (d : Loc) (sp : Spelling) (s : State)
    (hr : Renderable s.cfg s.x) :
    ∃ t, exec (mk (.loc d sp)) s = .next t ∧ readLoc d t.x = readLoc l s.x ∧
      t.mode = if s.cfg.stepMode then .awaitAck else s.mode :=
  h.copies_whole (hl.trans_le (memWidth_le_widthOf d)) sp hr

/-- Settles O29: every location is at least as wide as a memory slot. -/
theorem memoryOutNeverViolatesWidth : Obligations.MemoryOutNeverViolatesWidth := by
  obtain ⟨h1, h2, h3, h4, h5⟩ := memoryOutTransfers
  simp only [Obligations.MemoryOutNeverViolatesWidth, List.forall_mem_cons, List.not_mem_nil, false_imp_iff,
    implies_true, and_true]
  exact ⟨h1.copies_slot_whole rfl, h2.copies_slot_whole rfl, h3.copies_slot_whole rfl, h4.copies_slot_whole rfl,
    h5.copies_slot_whole rfl⟩

end Sys2Proof.Machine
end

section
/-! PROOFS. The statement of 46_control.md: RESET completes with the State Vector of run creation. -/

namespace Sys2Proof.Machine

/-- The Opcode field of run creation is RESET's code, whatever the configuration, so that RESET's Opcode write does not
change it (10_state.md R38; 46_control.md R242). -/
theorem committed_reset_initial (cfg : Config) : committed cfg .reset .initial = .initial := rfl

theorem renderable_initial (cfg : Config) : Renderable cfg .initial :=
  .inr (by decide)

/-- Settles O30: the initial State Vector takes RESET's Opcode write unchanged, and its render cannot overflow. -/
theorem resetRestoresTheStateVector : Obligations.ResetRestoresTheStateVector := by
  intro s
  have hr : Renderable s.cfg (committed s.cfg .reset .initial) := by
    rw [committed_reset_initial]
    exact renderable_initial s.cfg
  rw [exec_reset, complete_of_renderable hr, committed_reset_initial]
  rfl

end Sys2Proof.Machine
end

section
/-! PROOFS. The statements of 47_hazard_annotator.md about the scan and the stream it leaves. -/

namespace Sys2Proof.Machine

/-! ### The candidate, the probes and the trigger -/

theorem tokenAt_eq_some {A : List Item} {j : Nat} {t : Token} : tokenAt A j = some t ↔ A[j]? = some (.tok t) := by
  unfold tokenAt
  split
  · rename_i u hu
    rw [hu, Option.some.injEq, Option.some.injEq, Item.tok.injEq]
  · rename_i hne
    exact ⟨nofun, fun h => absurd h (hne t)⟩

theorem isCandidate_iff {minDist : Nat} {A : List Item} {b : Int} {j : Nat} :
    isCandidate minDist A b j = true ↔
      A[j]? = some .lb ∧ (minDist : Int) < (j : Int) - b ∧ ∃ t, A[j + 1]? = some (.tok t) := by
  simp only [isCandidate, Bool.and_eq_true, beq_iff_eq, decide_eq_true_eq, Option.isSome_iff_exists, tokenAt_eq_some,
    and_assoc]

section
variable {A : List Item} {b : Int} {j : Nat}

theorem probe_iff {k : Nat} : probe A b j k = true ↔
    (k : Int) ≤ window b j ∧ ∃ t, A[j - k]? = some (.tok t) ∧ A[j + 1]? = some (.tok t) := by
  simp only [probe, Bool.and_eq_true, decide_eq_true_eq, Option.isSome_iff_exists, beq_iff_eq, and_assoc,
    ← tokenAt_eq_some]
  refine and_congr_right fun _ => ⟨?_, ?_⟩
  · rintro ⟨⟨t, ht⟩, he⟩
    exact ⟨t, ht, he ▸ ht⟩
  · rintro ⟨t, ht, ht'⟩
    exact ⟨⟨t, ht⟩, ht.trans ht'.symm⟩

/-- The wider probe set holds every offset a window can have; the first set is part of it. -/
theorem hit_iff : hit A b j = true ↔ ∃ k : Nat, 2 ≤ k ∧ probe A b j k = true := by
  have hwide : ∀ k, probe A b j k = true → k ≤ 6 := fun k hk => by
    have := (probe_iff.mp hk).1
    unfold window at this
    omega
  simp only [hit, Bool.or_eq_true, List.any_eq_true]
  constructor
  · rintro (⟨k, hk, hp⟩ | ⟨k, hk, hp⟩)
    · exact ⟨k, (by decide : ∀ k ∈ [2, 3, 4], 2 ≤ k) k hk, hp⟩
    · exact ⟨k, (by decide : ∀ k ∈ [2, 3, 4, 5, 6], 2 ≤ k) k hk, hp⟩
  · rintro ⟨k, h2, hp⟩
    have h6 := hwide k hp
    exact .inr ⟨k, by interval_cases k <;> decide, hp⟩

/-- Settles O51: a match in the first probe set is one in the wider set, which covers the window. -/
theorem probeOrderIsUnobservable : Obligations.ProbeOrderIsUnobservable := fun A b j => by
  simp only [hit_iff, probe_iff, window]

theorem triggers_iff {minDist : Nat} :
    Triggers minDist A b j ↔ isCandidate minDist A b j = true ∧ hit A b j = true := by
  rw [isCandidate_iff, probeOrderIsUnobservable]
  constructor
  · rintro ⟨hlb, hd, t, ht, k, h2, hw, hk⟩
    exact ⟨⟨hlb, hd, t, ht⟩, k, h2, hw, t, hk, ht⟩
  · rintro ⟨⟨hlb, hd, -⟩, k, h2, hw, t, hk, ht⟩
    exact ⟨hlb, hd, t, ht, k, h2, hw, hk⟩

/-! ### One equation of the scan per case -/

theorem Triggers.getElem?_eq_lb {minDist : Nat} (h : Triggers minDist A b j) : A[j]? = some .lb := h.1

theorem Triggers.lt_length {minDist : Nat} (h : Triggers minDist A b j) : j < A.length :=
  (List.getElem?_eq_some_iff.mp h.getElem?_eq_lb).1

variable {minDist : Nat} (fuel : Nat)

theorem scan_of_triggers (h : Triggers minDist A b j) :
    scan minDist (fuel + 1) A b j = scan minDist fuel (withStalls A j) j (j + 1) := by
  obtain ⟨hc, hh⟩ := triggers_iff.mp h
  simp only [scan, h.lt_length, hc, hh, Bool.and_self, if_true]
  rfl

theorem scan_of_not_triggers (hj : j < A.length) (h : ¬ Triggers minDist A b j) :
    scan minDist (fuel + 1) A b j = scan minDist fuel A b (j + 1) := by
  rw [triggers_iff, ← Bool.and_eq_true] at h
  simp only [scan, hj, h, if_true, Bool.false_eq_true, if_false]

theorem scan_at_end (hj : A.length ≤ j) : scan minDist fuel A b j = A := by
  cases fuel with
  | zero => rfl
  | succ fuel => rw [scan, if_neg (Nat.not_lt.mpr hj)]

end

/-- Settles O57, by the scan's equation for each case. -/
theorem scanInsertsExactlyAtTriggers : Obligations.ScanInsertsExactlyAtTriggers := fun _ fuel _ _ _ =>
  ⟨scan_of_triggers fuel, scan_of_not_triggers fuel, scan_at_end fuel⟩

/-! ### The iterations are enough -/

/-- The iterations that items still to be scanned can take: one each, and two more a marker, for the pair of STALL tokens that
may be put after it (47_hazard_annotator.md R264). -/
def scanWork (A : List Item) : Nat := A.length + 2 * A.count .lb

theorem scanWork_le (A : List Item) : scanWork A ≤ 3 * A.length := by
  have := A.count_le_length (a := .lb)
  unfold scanWork
  omega

theorem scanWork_tok_cons (t : Token) (A : List Item) : scanWork (.tok t :: A) = scanWork A + 1 := by
  have hc : (Item.tok t :: A).count .lb = A.count .lb := List.count_cons_of_ne (by simp)
  simp only [scanWork, hc, List.length_cons]
  omega

theorem scanWork_lb_cons (A : List Item) : scanWork (.lb :: A) = scanWork A + 3 := by
  simp only [scanWork, List.count_cons_self, List.length_cons]
  omega

section
variable {minDist : Nat} {A : List Item} {b : Int} {j : Nat}

theorem drop_withStalls (hj : j < A.length) :
    (withStalls A j).drop (j + 1) = .tok "STALL".toList :: .tok "STALL".toList :: A.drop (j + 1) :=
  drop_insertStalls hj

theorem scanWork_drop_succ_lt (hj : j < A.length) : scanWork (A.drop (j + 1)) < scanWork (A.drop j) := by
  rw [List.drop_eq_getElem_cons hj]
  cases A[j] with
  | tok t => rw [scanWork_tok_cons]; omega
  | lb => rw [scanWork_lb_cons]; omega

/-- The marker passed pays for the two STALL tokens put after it. -/
theorem scanWork_drop_withStalls_lt (h : Triggers minDist A b j) :
    scanWork ((withStalls A j).drop (j + 1)) < scanWork (A.drop j) := by
  have hj := h.lt_length
  have hlb : A[j] = .lb := Option.some.inj ((List.getElem?_eq_getElem hj).symm.trans h.getElem?_eq_lb)
  rw [drop_withStalls hj, List.drop_eq_getElem_cons hj, hlb, scanWork_lb_cons, scanWork_tok_cons, scanWork_tok_cons]
  omega

/-- A scan that is given the iterations its items can take is the whole scan. -/
theorem scanned_scan {fuel : Nat} (h : scanWork (A.drop j) ≤ fuel) :
    ∃ n, Scanned minDist A b j n (scan minDist fuel A b j) := by
  induction fuel generalizing A b j with
  | zero =>
    have hj : A.length ≤ j := by
      by_contra hj
      have := scanWork_drop_succ_lt (Nat.lt_of_not_le hj)
      omega
    exact ⟨0, .done hj⟩
  | succ fuel ih =>
    by_cases hj : j < A.length
    · by_cases ht : Triggers minDist A b j
      · have hw := scanWork_drop_withStalls_lt ht
        obtain ⟨n, hn⟩ := ih (A := withStalls A j) (b := j) (j := j + 1) (by omega)
        exact ⟨n + 1, .insert hj ht (scan_of_triggers fuel ht ▸ hn)⟩
      · have hw := scanWork_drop_succ_lt hj
        obtain ⟨n, hn⟩ := ih (A := A) (b := b) (j := j + 1) (by omega)
        exact ⟨n, .pass hj ht (scan_of_not_triggers fuel hj ht ▸ hn)⟩
    · have hj := Nat.le_of_not_lt hj
      exact ⟨0, by rw [scan_at_end _ hj]; exact .done hj⟩

/-- The whole scan is determined by where it starts. -/
theorem Scanned.unique {n n' : Nat} {B B' : List Item} (h : Scanned minDist A b j n B)
    (h' : Scanned minDist A b j n' B') : B = B' := by
  induction h generalizing n' with
  | done hj =>
    cases h' with
    | done => rfl
    | insert hj' | pass hj' => omega
  | insert hj ht _ ih =>
    cases h' with
    | done hj' => omega
    | insert _ _ h' => exact ih h'
    | pass _ ht' => exact absurd ht ht'
  | pass hj ht _ ih =>
    cases h' with
    | done hj' => omega
    | insert _ ht' => exact absurd ht' ht
    | pass _ _ h' => exact ih h'

end

theorem scanned_of_raw {minDist fuel : Nat} {raw : List Item} (h : 3 * raw.length ≤ fuel) :
    ∃ n, Scanned minDist raw (-1) 0 n (scan minDist fuel raw (-1) 0) :=
  scanned_scan ((scanWork_le raw).trans h)

/-- Settles O52: with and without more iterations the scan is the whole scan. -/
theorem scanCompletes : Obligations.ScanCompletes := by
  intro minDist raw more
  obtain ⟨_, hmore⟩ := scanned_of_raw (minDist := minDist) (Nat.le_add_right (3 * raw.length) more)
  obtain ⟨_, h⟩ := scanned_of_raw (minDist := minDist) (Nat.le_refl (3 * raw.length))
  exact hmore.unique h

/-! ### What the annotator keeps -/

theorem itemTokens_withStalls_length (A : List Item) (j : Nat) :
    (itemTokens (withStalls A j)).length = (itemTokens A).length + 2 := by
  conv_rhs => rw [← List.take_append_drop (j + 1) A]
  simp only [withStalls, itemTokens_append, itemTokens, List.length_append, List.length_cons, List.length_nil]
  omega

theorem Scanned.itemTokens_length {minDist n j : Nat} {A B : List Item} {b : Int} (h : Scanned minDist A b j n B) :
    (itemTokens B).length = (itemTokens A).length + 2 * n := by
  induction h with
  | done => rfl
  | insert _ _ _ ih => rw [ih, itemTokens_withStalls_length]; omega
  | pass _ _ _ ih => exact ih

namespace StallPairs
variable {A : List Item} {n : Nat} {p : List Token} (h : StallPairs A n p)
include h

theorem le_count_lb : n ≤ A.count .lb := by
  induction h with
  | nil => exact Nat.le_refl 0
  | tok _ ih => exact ih.trans (List.count_le_count_cons ..)
  | lb _ ih => exact ih.trans (List.count_le_count_cons ..)
  | pair _ ih => rw [List.count_cons_self]; omega

theorem length_eq : p.length = (itemTokens A).length + 2 * n := by
  induction h with
  | nil => rfl
  | tok _ ih => simp only [itemTokens, List.length_cons, ih]; omega
  | lb _ ih => exact ih
  | pair _ ih => simp only [itemTokens, List.length_cons, ih]; omega

theorem itemTokens_sublist : (itemTokens A).Sublist p := by
  induction h with
  | nil => exact .slnil
  | tok _ ih => exact ih.cons_cons _
  | lb _ ih => exact ih
  | pair _ ih => exact (ih.cons _).cons _

theorem filter_eq : p.filter (· ≠ "STALL".toList) = (itemTokens A).filter (· ≠ "STALL".toList) := by
  induction h with
  | nil => rfl
  | tok _ ih => simp only [itemTokens, List.filter_cons, ih]
  | lb _ ih => exact ih
  | pair _ ih => simpa [itemTokens] using ih

end StallPairs

/-- Settles O53: the pairs counted by the scan's triggers and those the stream shows are as many, by its length. -/
theorem annotatorKeepsTheTokens : Obligations.AnnotatorKeepsTheTokens := by
  intro minDist raw
  obtain ⟨n, hs⟩ := scanned_of_raw (minDist := minDist) (Nat.le_refl (3 * raw.length))
  obtain ⟨k, hp⟩ := annotate_stallPairs minDist raw
  have hl : (annotate minDist raw).length = (itemTokens raw).length + 2 * n := hs.itemTokens_length
  obtain rfl : k = n := by
    have := hp.length_eq
    omega
  exact ⟨k, _, hs, rfl, hp, hp.le_count_lb, hl, hp.itemTokens_sublist, hp.filter_eq⟩

/-! ### Streams of tokens and of whole lines -/

theorem StallPairs.of_map_tok_append {ts : List Token} {A : List Item} {n : Nat} {p : List Token}
    (h : StallPairs (ts.map .tok ++ A) n p) : ∃ q, p = ts ++ q ∧ StallPairs A n q := by
  induction ts generalizing p with
  | nil => exact ⟨p, rfl, h⟩
  | cons t ts ih =>
    obtain ⟨p', rfl, h'⟩ := h.of_tok
    obtain ⟨q, rfl, hq⟩ := ih h'
    exact ⟨q, rfl, hq⟩

/-- Without markers there is nowhere to insert. -/
theorem StallPairs.eq_of_map_tok {ts : List Token} {n : Nat} {p : List Token} (h : StallPairs (ts.map .tok) n p) :
    p = ts := by
  rw [← List.append_nil (ts.map _)] at h
  obtain ⟨q, rfl, hq⟩ := h.of_map_tok_append
  cases hq
  exact List.append_nil ts

/-- Settles O54: an annotated stream holds no marker. -/
theorem annotatorIsIdempotent : Obligations.AnnotatorIsIdempotent := fun minDist minDist' raw =>
  (annotate_stallPairs minDist' ((annotate minDist raw).map .tok)).elim fun _ h => h.eq_of_map_tok

theorem WholeLine.stallExpansion_append {line p q : List Token} (hl : WholeLine line) (h : StallExpansion p q) :
    StallExpansion (line ++ p) (line ++ q) := by
  obtain ⟨i, hi⟩ := hl
  exact .instr (decode_append hi p) h

theorem rawOfLines_cons {lines : List (List Token)} (h : lines ≠ []) (line : List Token) :
    rawOfLines (line :: lines) = line.map .tok ++ .lb :: rawOfLines lines := by
  cases lines with
  | nil => exact absurd rfl h
  | cons => rfl

/-- A pair of STALL tokens after the marker of a whole line stands where the next instruction is dispatched. -/
theorem stallExpansion_of_wholeLines {lines : List (List Token)} {n : Nat} {p : List Token}
    (hl : ∀ line ∈ lines, WholeLine line) (h : StallPairs (rawOfLines lines) n p) : StallExpansion lines.flatten p := by
  induction lines using rawOfLines.induct generalizing n p with
  | case1 =>
    cases h
    exact .nil
  | case2 line =>
    rw [h.eq_of_map_tok, List.flatten_singleton, ← List.append_nil line]
    exact (hl line (.head _)).stallExpansion_append .nil
  | case3 line lines hne ih =>
    obtain ⟨hline, hlines⟩ := List.forall_mem_cons.mp hl
    rw [rawOfLines_cons hne] at h
    obtain ⟨q, rfl, hq⟩ := h.of_map_tok_append
    refine hline.stallExpansion_append ?_
    cases hq with
    | lb hq => exact ih hlines hq
    | pair hq => exact .stall (.stall (ih hlines hq))

/-- Settles O55: the pairs stand directly after markers, and each marker ends a whole instruction. -/
theorem stallsLandAtDispatchPositions : Obligations.StallsLandAtDispatchPositions := fun minDist lines hl =>
  (annotate_stallPairs minDist (rawOfLines lines)).elim fun _ h => stallExpansion_of_wholeLines hl h

/-- Settles O50: the model evaluates the example. -/
theorem annotatorReferenceExample : Obligations.AnnotatorReferenceExample := by
  unfold Obligations.AnnotatorReferenceExample
  decide

end Sys2Proof.Machine
end

section
/-! PROOFS. The statement of 47_hazard_annotator.md about a run over a stream with STALL tokens inserted. -/

namespace Sys2Proof

/-- An instruction is read from its mnemonic's token and tokens of which its operands are the classes, whatever follows. -/
theorem decode_tokens {i : Instr} {os : List Token} (h : i.operands = os.map operandOf) (rest : List Token) :
    decode (i.mnemonic.token :: (os ++ rest)) = .instr i rest := by
  have hm := mnemonicOf?_token i.mnemonic
  rcases i.made with ⟨hk, hl⟩ | ⟨f, a, hk, hi, hl⟩ | ⟨f, a, b, hk, hi, hl⟩ | ⟨f, a, b, c, hk, hi, hl⟩ <;>
    rw [hl, eq_comm] at h
  · obtain rfl := List.map_eq_nil_iff.mp h
    exact decode_of0 hm hk rest
  · obtain ⟨u, rfl, rfl⟩ := List.map_eq_singleton_iff.mp h
    exact hi ▸ decode_of1 hm hk u rest
  · match os, h with
    | [u, v], rfl => exact hi ▸ decode_of2 hm hk u v rest
  · match os, h with
    | [u, v, w], rfl => exact hi ▸ decode_of3 hm hk u v w rest

section
variable {ts p : List Token} {i : Instr} (h : decode (ts ++ p) = .instr i p)
include h

theorem tokens_of_decode_append : ∃ os, ts = i.mnemonic.token :: os ∧ i.operands = os.map operandOf := by
  obtain ⟨os, ht, ho⟩ := tokens_of_decode h
  exact ⟨os, List.append_cancel_right ht, ho⟩

theorem length_of_decode_append : ts.length = 1 + i.mnemonic.arity := by
  obtain ⟨os, rfl, ho⟩ := tokens_of_decode_append h
  rw [← i.operands_length, ho, List.length_map, List.length_cons, Nat.add_comm]

/-- An instruction is read alike whatever follows its tokens (30_encoding.md R74). -/
theorem decode_append_instead (q : List Token) : decode (ts ++ q) = .instr i q := by
  obtain ⟨os, rfl, ho⟩ := tokens_of_decode_append h
  exact decode_tokens ho q

end

end Sys2Proof

namespace Sys2Proof.Machine

/-! ### How a run ends does not depend on how many steps are counted -/

/-- Steps after the end of a run change nothing. -/
theorem runSteps_add_of_ended {k : Nat} {s u : State} (h : runSteps k s = .next u) (hu : u.mode.terminal = true)
    (n : Nat) : runSteps (k + n) s = .next u := by
  induction k generalizing s with
  | zero =>
    obtain rfl := Host.Outcome.next.inj ((runSteps_zero s).symm.trans h)
    exact endedRunStaysEnded _ s hu
  | succ k ih =>
    rw [Nat.add_right_comm]
    rcases step_next_or_past_end s with ⟨-, hs⟩ | ⟨-, s', hs⟩
    · cases (runSteps_fault hs k).symm.trans h
    · rw [runSteps_next hs] at h ⊢
      exact ih h

theorem end_unique {k n : Nat} {s u v : State} (hk : runSteps k s = .next u) (hu : u.mode.terminal = true)
    (hn : runSteps n s = .next v) (hv : v.mode.terminal = true) : u = v := by
  have hkn := runSteps_add_of_ended hk hu n
  rw [Nat.add_comm, runSteps_add_of_ended hn hv k] at hkn
  exact (Host.Outcome.next.inj hkn).symm

/-! ### An instruction executed in two runs with the same locations -/

/-- Both runs ended, in the same locations, and in the same error, at some index, or without one. -/
structure EndAlike (s t : State) : Prop where
  terminal : s.mode.terminal = true
  locs : ∀ l, readLoc l t.x = readLoc l s.x
  done : s.mode = .done → t.mode = .done
  fault : ∀ r, s.mode = .faulted r → ∃ index, t.mode = .faulted { r with index := index }

theorem endAlike_of_faulted {s t : State} {e : CoreError} {k k' : Nat} {m : Token} (hs : s.mode = .faulted ⟨e, k, m⟩)
    (ht : t.mode = .faulted ⟨e, k', m⟩) (hl : ∀ l, readLoc l t.x = readLoc l s.x) : EndAlike s t where
  terminal := by rw [hs]; rfl
  locs := hl
  done h := by rw [hs] at h; cases h
  fault r h := by
    rw [hs] at h
    cases h
    exact ⟨k', ht⟩

theorem afterError_endAlike {s t : State} (hl : ∀ l, readLoc l t.x = readLoc l s.x) (m : Token) (e : CoreError) :
    EndAlike (afterError s m e) (afterError t m e) :=
  endAlike_of_faulted rfl rfl hl

/-- Both outcomes are next states: the runs end alike, or each commits an instruction of arity `n` that leaves the same
locations. -/
def GoAlike (n : Nat) (s t : State) (o p : Host.Outcome State Fault Refusal) : Prop :=
  (∃ s' t', o = .next s' ∧ p = .next t' ∧ EndAlike s' t') ∨
  ∃ x y, o = .next (afterCommit s n x) ∧ p = .next (afterCommit t n y) ∧ ∀ l, readLoc l y = readLoc l x

section
variable {s t : State} (hc : t.cfg = s.cfg)
include hc

theorem complete_goAlike (m : Mnemonic) {x y : StateVector} (h : ∀ l, readLoc l y = readLoc l x) :
    GoAlike m.arity s t (.next (complete m x s)) (.next (complete m y t)) := by
  have hxy : ∀ l, readLoc l (committed t.cfg m y) = readLoc l (committed s.cfg m x) := by simpa using h
  have hyx := fun l => (hxy l).symm
  rcases complete_cases m x s with ⟨hr, hs⟩ | ⟨hp, slot, v, hf, hs⟩
  · rw [hs, complete_of_renderable (hc ▸ renderable_congr hyx hr)]
    exact .inr ⟨_, _, rfl, rfl, hxy⟩
  · rw [hs, complete_of_firstOver (hc ▸ hp) (firstOver_congr hyx hf)]
    exact .inl ⟨_, _, rfl, rfl, endAlike_of_faulted rfl rfl hxy⟩

variable (hl : ∀ l, readLoc l t.x = readLoc l s.x)
include hl

theorem perform_goAlike (m : Mnemonic) (dest : Option Token) (res : Except CoreError Effect) :
    GoAlike m.arity s t (perform m dest res s) (perform m dest res t) := by
  rcases res with e | ⟨d, r⟩ | _ | _
  · exact .inl ⟨_, _, rfl, rfl, afterError_endAlike hl m.token e⟩
  · simp only [perform, hc]
    cases fit s.cfg d dest r with
    | error e => exact .inl ⟨_, _, rfl, rfl, afterError_endAlike hl m.token e⟩
    | ok v => exact complete_goAlike hc m (readLoc_writeLoc_congr hl d v)
  · exact complete_goAlike hc m hl
  · exact complete_goAlike hc m fun _ => rfl

theorem exec_goAlike (i : Instr) : GoAlike i.mnemonic.arity s t (exec i s) (exec i t) := by
  obtain ⟨dest, res, hop, -, he⟩ := exec_as_perform i
  rw [he, he, hop.congr _ _ hl]
  exact perform_goAlike hc hl _ _ _

end

/-! ### What is left of the stream after an instruction or a skipped token -/

theorem drop_program_of_append {s : State} {ts p : List Token} (h : s.program.drop s.pc = ts ++ p) :
    s.program.drop (s.pc + ts.length) = p := by
  rw [← List.drop_drop, h, List.drop_left]

theorem drop_program_of_cons {s : State} {u : Token} {p : List Token} (h : s.program.drop s.pc = u :: p) :
    s.program.drop (s.pc + 1) = p :=
  drop_program_of_append (ts := [u]) h

theorem drop_program_afterCommit {s : State} {n : Nat} {ts p : List Token} (h : s.program.drop s.pc = ts ++ p)
    (hn : ts.length = 1 + n) (x : StateVector) :
    (afterCommit (nextInput s) n x).program.drop (afterCommit (nextInput s) n x).pc = p := by
  have hd := drop_program_of_append h
  rw [hn] at hd
  exact hd

/-! ### A run that is not over -/

/-- A run without step mode that is not over. -/
structure Running (s : State) : Prop where
  inv : MachineInv s
  mode : s.mode = .run
  noPause : s.cfg.stepMode = false

theorem Running.after_step {s s' : State} (h : Running s) (hs : step s = .next s') (hm : s'.mode = .run) :
    Running s' where
  inv := stepKeepsInvariant s s' h.inv hs
  mode := hm
  noPause := (step_continues hs).cfg ▸ h.noPause

theorem Running.afterCommit_mode {s : State} (h : Running s) (n : Nat) (x : StateVector) :
    (afterCommit (nextInput s) n x).mode = .run := by
  simp [afterCommit, h.noPause, h.mode]

/-- A STALL token at a dispatch position writes the Opcode field only: the run goes on after it (46_control.md R241). -/
theorem Running.step_stall {s : State} {p : List Token} (h : Running s)
    (hp : s.program.drop s.pc = Mnemonic.stall.token :: p) :
    step s = .next (afterCommit (nextInput s) 0 (committed s.cfg .stall s.x)) := by
  have hf : fetch s = .instr .stall p := by
    rw [fetch, hp]
    exact decode_tokens (i := .stall) (os := []) rfl p
  have hr : Renderable s.cfg (committed s.cfg .stall s.x) :=
    renderable_congr (by simp) (h.inv.going (h.mode ▸ rfl)).rendered
  have hc : complete .stall s.x (nextInput s) = afterCommit (nextInput s) 0 (committed s.cfg .stall s.x) :=
    complete_of_renderable hr
  exact (step_instr h.mode hf).trans (congrArg _ hc)

/-! ### Both runs to their ends -/

/-- Both runs come to an end, and end alike. -/
def EndsAlike (s t : State) : Prop :=
  ∃ k k' s' t', runSteps k s = .next s' ∧ runSteps k' t = .next t' ∧ EndAlike s' t'

theorem EndAlike.endsAlike {s t : State} (h : EndAlike s t) : EndsAlike s t :=
  ⟨0, 0, s, t, runSteps_zero s, runSteps_zero t, h⟩

theorem EndsAlike.of_step_right {s t t' : State} (ht : step t = .next t') (h : EndsAlike s t') : EndsAlike s t := by
  obtain ⟨k, k', u, v, hk, hk', huv⟩ := h
  exact ⟨k, k' + 1, u, v, hk, (runSteps_next ht k').trans hk', huv⟩

theorem EndsAlike.of_steps {s s' t t' : State} (hs : step s = .next s') (ht : step t = .next t') (h : EndsAlike s' t') :
    EndsAlike s t := by
  obtain ⟨k, k', u, v, hk, hk', huv⟩ := h
  exact ⟨k + 1, k' + 1, u, v, (runSteps_next hs k).trans hk, (runSteps_next ht k').trans hk', huv⟩

/-- By induction on the expansion: a STALL token is a step of the second run alone, every other case one step of both. -/
theorem endsAlike_of_stallExpansion {s t : State} {p q : List Token} (he : StallExpansion p q) (hs : Running s)
    (ht : Running t) (hc : t.cfg = s.cfg) (hl : ∀ l, readLoc l t.x = readLoc l s.x) (hp : s.program.drop s.pc = p)
    (hq : t.program.drop t.pc = q) : EndsAlike s t := by
  induction he generalizing s t with
  | nil =>
    have hs' := step_at_end hs.mode (by rw [fetch, hp, decode_nil]) hs.inv.pcInStream
    have ht' := step_at_end ht.mode (by rw [fetch, hq, decode_nil]) ht.inv.pcInStream
    exact .of_steps hs' ht' (EndAlike.endsAlike ⟨rfl, hl, fun _ => rfl, nofun⟩)
  | stall _ ih =>
    have ht' := ht.step_stall hq
    have hl' : ∀ l, readLoc l (committed t.cfg .stall t.x) = readLoc l s.x := by simpa using hl
    exact .of_step_right ht' (ih hs (ht.after_step ht' (ht.afterCommit_mode _ _)) hc hl' hp (drop_program_of_cons hq))
  | skipped hn _ ih =>
    have hs' := step_notMnemonic hs.mode (by rw [fetch, hp, decode_notMnemonic hn])
    have ht' := step_notMnemonic ht.mode (by rw [fetch, hq, decode_notMnemonic hn])
    exact .of_steps hs' ht' (ih (hs.after_step hs' hs.mode) (ht.after_step ht' ht.mode) hc hl (drop_program_of_cons hp)
      (drop_program_of_cons hq))
  | @instr i ts p q hd _ ih =>
    have hs' := step_instr hs.mode (by rw [fetch, hp, hd])
    have ht' := step_instr ht.mode (by rw [fetch, hq, decode_append_instead hd q])
    rcases exec_goAlike (s := nextInput s) (t := nextInput t) hc hl i with ⟨u, v, hu, hv, hend⟩ | ⟨x, y, hx, hy, hxy⟩
    · exact .of_steps (hs'.trans hu) (ht'.trans hv) hend.endsAlike
    · have hlen := length_of_decode_append hd
      have hs' := hs'.trans hx
      have ht' := ht'.trans hy
      exact .of_steps hs' ht' (ih (hs.after_step hs' (hs.afterCommit_mode _ _))
        (ht.after_step ht' (ht.afterCommit_mode _ _)) hc hxy (drop_program_afterCommit hp hlen x)
        (drop_program_afterCommit hq hlen y))
  | cutOff hd =>
    have hs' := step_truncated hs.mode (by rw [fetch, hp, hd])
    have ht' := step_truncated ht.mode (by rw [fetch, hq, hd])
    exact .of_steps hs' ht' (afterError_endAlike (s := nextInput s) (t := nextInput t) hl _ _).endsAlike

/-- Settles O56: both runs end, and end alike; the end the first is given is its only one. -/
theorem stallsChangeNoLocation : Obligations.StallsChangeNoLocation := by
  intro s t s' k hstep invs invt hs ht hc hl he hk hend
  obtain ⟨n, n', u, t', hn, hn', hu⟩ :=
    endsAlike_of_stallExpansion he ⟨invs, hs, hstep⟩ ⟨invt, ht, hc ▸ hstep⟩ hc hl rfl rfl
  obtain rfl := end_unique hk hend hn hu.terminal
  exact ⟨n', t', hn', hu.locs, hu.done, hu.fault⟩

end Sys2Proof.Machine
end

section
/-! PROOFS. The statements of 60_exceptions.md: which errors an instruction without operands and a run under the default
policies can end in. -/

namespace Sys2Proof.Machine

/-! ### Instructions without operands -/

/-- An instruction of arity 0 completes at once, with the State Vector it finds or the initial one. -/
theorem exec_completes_of_arity_zero {i : Instr} (ha : i.mnemonic.arity = 0) (s : State) :
    ∃ x, exec i s = .next (complete i.mnemonic x s) ∧ (x = s.x ∨ x = .initial) := by
  cases i with
  | zero | imm | jump | stall => exact ⟨s.x, rfl, .inl rfl⟩
  | reset => exact ⟨.initial, rfl, .inr rfl⟩
  | _ => cases ha

/-- The Opcode write of a completion does not make the render overflow (40_engine.md R122). -/
theorem renderable_committed {cfg : Config} {x : StateVector} (hr : Renderable cfg x) (m : Mnemonic) :
    Renderable cfg (committed cfg m x) :=
  renderable_congr (fun l => (readLoc_committed l cfg m x).symm) hr

/-- A commit does not end the run. -/
theorem afterCommit_safe {s : State} (hs : Safe s) (n : Nat) (x : StateVector) : Safe (afterCommit s n x) := by
  intro r
  simp only [afterCommit]
  split
  · nofun
  · exact hs r

/-- Settles O43: no operand can be wrong, and the render accepts both the State Vector of a state that meets the invariant
and the initial one. -/
theorem arityZeroRaisesNoError : Obligations.ArityZeroRaisesNoError := by
  intro i s ha hinv hm
  obtain ⟨x, he, hx⟩ := exec_completes_of_arity_zero ha s
  have hgoing : Going s := hinv.going (hm ▸ rfl)
  have hr : Renderable s.cfg x := by
    rcases hx with rfl | rfl
    · exact hgoing.rendered
    · exact renderable_initial s.cfg
  have hs : Safe s := ne_faulted_of_not_terminal hgoing.notTerminal
  rw [complete_of_renderable (renderable_committed hr i.mnemonic)] at he
  exact ⟨_, he, afterCommit_safe hs _ _⟩

/-! ### The default policies -/

/-- Under `truncate` every result fits, so that an instruction takes an error of its operation or completes
(40_engine.md R108). -/
theorem exec_of_truncate {s : State} (ho : s.cfg.overflow = .truncate) (i : Instr) :
    (∃ e, (e.code = 1 ∨ e.code = 2) ∧ exec i s = .next (afterError s i.mnemonic.token e)) ∨
    ∃ x, exec i s = .next (complete i.mnemonic x s) := by
  obtain ⟨dest, res, hop, -, he⟩ := exec_as_perform i
  rw [he]
  rcases perform_cases i.mnemonic dest (res s.x) s with ⟨e, hres, hp⟩ | ⟨d, r, -, hfit, -⟩ | ⟨x, -, hp⟩
  · exact .inl ⟨e, hop.early _ _ hres, hp⟩
  · exact absurd (.inl ho) hfit
  · exact .inr ⟨x, hp⟩

/-- Under the default policies an instruction that ends in an error ends in UnknownOperand or DivideByZero. -/
theorem exec_error_of_default_policies {i : Instr} {s t : State} {r : FaultReport} (hs : Safe s)
    (ho : s.cfg.overflow = .truncate) (hr : s.cfg.render = .low32) (h : exec i s = .next t) (ht : t.mode = .faulted r) :
    r.error.code = 1 ∨ r.error.code = 2 := by
  rcases exec_of_truncate ho i with ⟨e, hcode, he⟩ | ⟨x, he⟩
  · obtain rfl := Host.Outcome.next.inj (he.symm.trans h)
    cases ht
    exact hcode
  · rw [complete_of_renderable (.inl hr)] at he
    obtain rfl := Host.Outcome.next.inj (he.symm.trans h)
    exact absurd ht (afterCommit_safe hs _ _ r)

/-- Settles O44, by what the decoder reads at pc: an instruction raises errors 1 and 2 only, a cut-off one error 4. -/
theorem defaultPoliciesRaiseThreeErrors : Obligations.DefaultPoliciesRaiseThreeErrors := by
  refine ⟨fun s t r hm ho hr hst ht => ?_, fun _ _ _ _ _ _ => rfl⟩
  have hs : Safe s := fun r' hr' => nomatch hm.symm.trans hr'
  cases hf : fetch s with
  | instr i rest =>
    rw [step_instr hm hf] at hst
    exact (exec_error_of_default_policies (s := nextInput s) hs ho hr hst ht).imp_right .inl
  | notMnemonic u rest =>
    rw [step_notMnemonic hm hf] at hst
    cases hst
    exact absurd ht (hs r)
  | truncated m k =>
    rw [step_truncated hm hf] at hst
    cases hst
    cases ht
    exact .inr (.inr rfl)
  | endOfStream =>
    rcases le_or_gt s.pc s.program.length with hl | hl
    · rw [step_at_end hm hf hl] at hst
      cases hst
      nomatch ht
    · exact nomatch (step_past_end hm hf hl).symm.trans hst

end Sys2Proof.Machine
end

section
/-! PROOFS. The statements of 70_reset_and_hazards.md. -/

namespace Sys2Proof.Machine

/-- Every location starts at 0 (10_state.md R38). -/
@[simp] theorem readLoc_initial (l : Loc) : readLoc l .initial = 0 := by
  cases l <;> rfl

/-- Every piece of state of a run creation (10_state.md R38, 70_reset_and_hazards.md R310). -/
theorem createRun_values (cfg : Config) (ok : cfg.WellFormed) (raw : List Item) (acks : List Bool) :
    let s := createRun cfg ok raw acks
    (∀ l, readLoc l s.x = 0) ∧ s.x.opcode = 0b111111#6 ∧ s.x.reserved = 0 ∧ s.x.flags = 0 ∧
    s.pc = 0 ∧ s.mode = .run ∧ s.trace = [] :=
  ⟨readLoc_initial, rfl, rfl, rfl, createRun_pc .., createRun_mode .., createRun_trace ..⟩

/-- Settles O15: reset is one of the run creations, and each of them has these values. -/
theorem runCreationValues : Obligations.RunCreationValues := by
  intro cfg ok raw acks s hs
  obtain rfl | rfl : s = State.reset ∨ s = createRun cfg ok raw acks := by simpa using hs
  · rw [reset_eq_createRun default_wellFormed]
    exact createRun_values ..
  · exact createRun_values ..

end Sys2Proof.Machine
end
